-- ==== Sys2Proof/Word.lean ====
section
/-! DEFINITION. The bit vectors of the hardware: a byte of memory or of a line, a 64-bit register value, a 128-bit
vector register value; and the text of a line. -/

namespace Sys2Proof

/-- One byte: of data memory (R25) or of a line of text (R11). -/
abbrev Byte := BitVec 8

/-- `u64`: a general register, an immediate, an offset (R8 `XLEN`, R9). -/
abbrev Word := BitVec 64

/-- A vector register: 128 bits (R18); the spec gives its two lanes no order, so none is fixed here (log 11). -/
abbrev VWord := BitVec 128

/-- A finite sequence of bytes: a line, a token, a name (R11). -/
abbrev Text := List Byte

end Sys2Proof
end

