-- ==== Sys2Proof/Config.lean ====
section
/-! DEFINITION. The parameters of the hardware (R8) as one structure, so that every meaning and every claim ranges over
all of their values. The spec leaves no value undefined (R12), so there is no free value here. -/

namespace Sys2Proof

/-- The parameters of R8 that are not fixed: `XLEN = 64` and `VLEN = 128` are in the types. -/
structure Config where
  /-- Number of general registers (`R`). -/
  numRegs : Nat
  /-- Number of vector registers (`V`). -/
  numVRegs : Nat
  /-- Data memory capacity in bytes (`M`). -/
  memSize : Nat
  /-- Whether the opcode STORE is recognized (`HAS_STORE`). -/
  hasStore : Bool
deriving DecidableEq, Repr

/-- The constraint of R8 on the parameters of construction: register 0 must exist (`R >= 1`); `V` and `M` may be any
natural numbers. -/
abbrev Config.wf (cfg : Config) : Prop := 1 ≤ cfg.numRegs

/-- The constraint of R8 on `N`, the number of lines of the Program the host supplies for a run: `N < 2^64` (R21;
log 25). -/
abbrev programFits (program : List Text) : Prop := program.length < 2 ^ 64

/-- The defaults of R8 (D26, D27). -/
def Config.default : Config := { numRegs := 32, numVRegs := 8, memSize := 4096, hasStore := false }

/-- The defaults with every row of the opcode table present: its STORE row has the condition `HAS_STORE = true`
(R74, log 3). -/
def Config.fullTable : Config := { Config.default with hasStore := true }

end Sys2Proof
end

