-- ==== Sys2Proof/Machine/Text.lean ====
section
/-! DEFINITION. Characters, tokens and decimal numerals: the part of the Decoder that knows nothing of opcodes or
operands (R11, R51, R52, R56). It stands under Machine so that a repair can mend it. The ASCII byte values are the
spec's own general knowledge (G1; log 13). -/

namespace Sys2Proof

/-- The whitespace set `WS` (R51): 0x09 to 0x0D and 0x20. -/
def isWs (b : Byte) : Bool := (0x09 ≤ b.toNat && b.toNat ≤ 0x0D) || b.toNat == 0x20

/-- The separators of operands, `WS + {','}` (R58). -/
def isOperandSep (b : Byte) : Bool := isWs b || b == 0x2C#8

/-- A digit (R51): 0x30 to 0x39. -/
def isDigit (b : Byte) : Bool := 0x30 ≤ b.toNat && b.toNat ≤ 0x39

/-- A lower-case letter (R51): 0x61 to 0x7A. -/
def isLower (b : Byte) : Bool := 0x61 ≤ b.toNat && b.toNat ≤ 0x7A

/-- Upper-casing of one byte (R56): ASCII only. -/
def upperByte (b : Byte) : Byte := if isLower b then b - 0x20#8 else b

/-- `Upper(t)` (R56). -/
def upper (t : Text) : Text := t.map upperByte

/-- Put a byte in front of the first token of a list of tokens, or make it a token where there is none. -/
def consToken (b : Byte) : List Text → List Text
  | [] => [[b]]
  | w :: ws => (b :: w) :: ws

/-- Whether the text starts inside a token: with a byte that is no separator. -/
def startsToken (sep : Byte → Bool) : Text → Bool
  | [] => false
  | b :: _ => !sep b

/-- `Tokens(s, SEP)` (R52): the maximal non-empty runs of bytes that are no separators, left to right. -/
def tokens (sep : Byte → Bool) : Text → List Text
  | [] => []
  | b :: t =>
    if sep b then tokens sep t
    else if startsToken sep t then consToken b (tokens sep t)
    else [b] :: tokens sep t

/-- The bytes of a line that follow the last byte of its first whitespace-delimited token (`rest` of R49, R58). -/
def afterOpcode (line : Text) : Text := (line.dropWhile isWs).dropWhile fun b => !isWs b

/-- `dec(d)` (R11): the number the digits spell in base ten, most significant first; unbounded. -/
def decVal (d : Text) : Nat := d.foldl (fun acc b => 10 * acc + (b.toNat - 0x30)) 0

/-- `IsRegShape(t)` (R59): the lower-case letter `r` followed by one or more digits and nothing else. -/
def isRegShape : Text → Bool
  | [] => false
  | b :: d => b == 0x72#8 && !d.isEmpty && d.all isDigit

/-- The digit byte of a number below ten. -/
def digitByte (n : Nat) : Byte := BitVec.ofNat 8 (0x30 + n)

/-- The decimal numeral of a number, by fuel: a number below ten is one digit. -/
def decTextAux : Nat → Nat → Text
  | 0, n => [digitByte (n % 10)]
  | fuel + 1, n => if n < 10 then [digitByte n] else decTextAux fuel (n / 10) ++ [digitByte (n % 10)]

/-- The decimal numeral of a number, without leading zeros (used by the encoder only; log 10). -/
def decText (n : Nat) : Text := decTextAux n n

/-- The bytes of a text read as one number, first byte most significant (R74). -/
def textNat (t : Text) : Nat := t.foldl (fun acc b => 256 * acc + b.toNat) 0

/-- The `n` bytes of a number, first byte most significant (R74). -/
def natText (n w : Nat) : Text := (List.range n).map fun k => BitVec.ofNat 8 (w >>> (8 * (n - 1 - k)))

end Sys2Proof
end

