-- ==== Sys2Proof/Syntax.lean ====
section
/-! DEFINITION. What a line decodes to: the four kinds of operand (R65) and one constructor per row of the opcode
table (R57, R74). -/

namespace Sys2Proof

/-- An operand as the Decoder leaves it (R59, R65). -/
inductive Operand where
  /-- `r<digits>`: general register `i` (R61). -/
  | reg (i : Nat)
  /-- `#<digits>`: a 64-bit unsigned value (R62). -/
  | imm (v : Word)
  /-- `[r<digits>]` or `[r<digits>+<digits>]`: base register and unsigned offset (R63). -/
  | mem (base : Nat) (off : Word)
  /-- Any other token, unchanged (R60). -/
  | name (s : Text)
deriving DecidableEq, Repr

/-- A decoded line. An Operation keeps the whole list of its operands, of any kinds (R65, R66): which slots are read,
and what a missing or ill-kinded one stands for, is the Execution Unit's affair (R79). -/
inductive Instr where
  /-- MOVI (R87). -/
  | movi (ops : List Operand)
  /-- LOAD (R89). -/
  | load (ops : List Operand)
  /-- STORE, recognized only when `HAS_STORE` (R90). -/
  | store (ops : List Operand)
  /-- ADD (R91). -/
  | add (ops : List Operand)
  /-- DEC (R92). -/
  | dec (ops : List Operand)
  /-- BNE (R96). -/
  | bne (ops : List Operand)
  /-- HALT (R97). -/
  | halt (ops : List Operand)
  /-- A Label Definition (R53, R99); no Operation. -/
  | labelDef (name : Text)
  /-- The unrecognized opcode, the symbol UNKNOWN (R57, R98); the token's text is not kept (R65). -/
  | unrecognized (ops : List Operand)
deriving DecidableEq, Repr

/-- The operands of an Operation; a Label Definition has none and is no Operation. -/
def Instr.operands? : Instr → Option (List Operand)
  | .movi ops => some ops
  | .load ops => some ops
  | .store ops => some ops
  | .add ops => some ops
  | .dec ops => some ops
  | .bne ops => some ops
  | .halt ops => some ops
  | .labelDef _ => none
  | .unrecognized ops => some ops

end Sys2Proof
end

