-- ==== Sys2Proof/WellFormed.lean ====
section
/-! DEFINITION. The well-formed instructions: exactly those a line can decode to (R65), as decidable checks; and the
well-shaped ones, whose meaning needs no default (R67). -/

namespace Sys2Proof

/-- A Name (R60): a token, so non-empty and free of separators, that is no immediate, memory or register token. -/
def nameWf (s : Text) : Bool :=
  !s.isEmpty && s.all (fun b => !isOperandSep b) && s.head? != some 0x23#8 && s.head? != some 0x5B#8 && !isRegShape s

/-- The bounds R65 gives an operand. -/
def Operand.wf (cfg : Config) : Operand → Bool
  | .reg i => i < cfg.numRegs
  | .imm _ => true
  | .mem base _ => base < cfg.numRegs
  | .name s => nameWf s

/-- An operand list of R65: at most three operands, each within its bounds. -/
def operandsWf (cfg : Config) (ops : List Operand) : Bool := ops.length ≤ 3 && ops.all (Operand.wf cfg)

/-- What a line can decode to (R53, R65): STORE only when `HAS_STORE`, a label's name free of whitespace. -/
def Instr.wf (cfg : Config) : Instr → Bool
  | .movi ops => operandsWf cfg ops
  | .load ops => operandsWf cfg ops
  | .store ops => cfg.hasStore && operandsWf cfg ops
  | .add ops => operandsWf cfg ops
  | .dec ops => operandsWf cfg ops
  | .bne ops => operandsWf cfg ops
  | .halt ops => operandsWf cfg ops
  | .labelDef name => name.all fun b => !isWs b
  | .unrecognized ops => operandsWf cfg ops

/-- `WellShaped` (R67): the operand list has exactly the kinds of the opcode's row, in order. The hardware does not
test it; a Label Definition is no Operation and has no shape to meet. -/
def Instr.wellShaped : Instr → Bool
  | .movi [.reg _, .imm _] => true
  | .movi _ => false
  | .load [.reg _, .mem _ _] => true
  | .load _ => false
  | .store [.reg _, .mem _ _] => true
  | .store _ => false
  | .add [.reg _, .reg _, .reg _] => true
  | .add [.reg _, .reg _, .imm _] => true
  | .add _ => false
  | .dec [.reg _] => true
  | .dec _ => false
  | .bne [.name _] => true
  | .bne _ => false
  | .halt [] => true
  | .halt _ => false
  | .labelDef _ => true
  | .unrecognized _ => false

end Sys2Proof
end

