-- ==== Sys2Proof/Decode.lean ====
section
/-! DEFINITION. The Decoder: total on every byte sequence, a Malformed operand rejected by slot and token (R49 to R73);
and after it an encoder that writes the canonical text of an instruction (R67, R70), and the reading of a word of the
opcode table. -/

namespace Sys2Proof

/-- The three results of `Decode(line)` (R49); a Label Definition and an Operation are both an `Instr`. -/
inductive DecodeResult where
  | instr (i : Instr)
  /-- One of the first three operand tokens is Malformed: which slot, and its bytes (R64). -/
  | error (slot : Nat) (token : Text)
deriving DecidableEq, Repr

/-! ## The mnemonics (R57, R74) -/

/-- `MOVI`, match 0x4D4F5649. -/
def tokMovi : Text := [0x4D#8, 0x4F#8, 0x56#8, 0x49#8]
/-- `LOAD`, match 0x4C4F4144. -/
def tokLoad : Text := [0x4C#8, 0x4F#8, 0x41#8, 0x44#8]
/-- `STORE`, match 0x53544F5245. -/
def tokStore : Text := [0x53#8, 0x54#8, 0x4F#8, 0x52#8, 0x45#8]
/-- `ADD`, match 0x414444. -/
def tokAdd : Text := [0x41#8, 0x44#8, 0x44#8]
/-- `DEC`, match 0x444543. -/
def tokDec : Text := [0x44#8, 0x45#8, 0x43#8]
/-- `BNE`, match 0x424E45. -/
def tokBne : Text := [0x42#8, 0x4E#8, 0x45#8]
/-- `HALT`, match 0x48414C54. -/
def tokHalt : Text := [0x48#8, 0x41#8, 0x4C#8, 0x54#8]

/-- `Recognize(u)` (R57), applied to the decoded operands: exact equality with the whole normalized token; STORE only
if `HAS_STORE`; everything else is unrecognized. -/
def recognize (cfg : Config) (u : Text) (ops : List Operand) : Instr :=
  if u = tokMovi then .movi ops
  else if u = tokLoad then .load ops
  else if u = tokAdd then .add ops
  else if u = tokDec then .dec ops
  else if u = tokBne then .bne ops
  else if u = tokHalt then .halt ops
  else if cfg.hasStore && u == tokStore then .store ops
  else .unrecognized ops

/-! ## The operands (R59 to R64) -/

/-- One or more digits whose value is below 2^64 (R62, R63); none where it is not. -/
def parseU64 (d : Text) : Option Word :=
  if !d.isEmpty && d.all isDigit && decVal d < 2 ^ 64 then some (BitVec.ofNat 64 (decVal d)) else none

/-- A register token and its index, below `R` (R61); none where it is not one. -/
def parseReg (cfg : Config) (t : Text) : Option Nat :=
  if isRegShape t && decVal t.tail < cfg.numRegs then some (decVal t.tail) else none

/-- The offset part of a memory token, from the first `+` on (R63): 0 where there is no `+`. -/
def parseOffset : Text → Option Word
  | [] => some 0#64
  | _ :: o => parseU64 o

/-- `ClassifyMemory` (R63) of the bytes after the opening bracket. -/
def classifyMemory (cfg : Config) (d : Text) : Option Operand :=
  if d.getLast? = some 0x5D#8 then
    match parseReg cfg (d.dropLast.takeWhile (· != 0x2B#8)), parseOffset (d.dropLast.dropWhile (· != 0x2B#8)) with
    | some b, some o => some (.mem b o)
    | _, _ => none
  else none

/-- `Classify(t)` (R59); none is the verdict Malformed. A token is never empty (R52). -/
def classify (cfg : Config) : Text → Option Operand
  | [] => none
  | b :: d =>
    if b = 0x23#8 then (parseU64 d).map .imm
    else if b = 0x5B#8 then classifyMemory cfg d
    else if isRegShape (b :: d) then (parseReg cfg (b :: d)).map .reg
    else some (.name (b :: d))

/-- Classify the operand tokens from slot `j` on: the operands, or the leftmost Malformed one (R64). -/
def classifyFrom (cfg : Config) : Nat → List Text → Except (Nat × Text) (List Operand)
  | _, [] => .ok []
  | j, t :: ts =>
    match classify cfg t with
    | none => .error (j, t)
    | some c =>
      match classifyFrom cfg (j + 1) ts with
      | .ok cs => .ok (c :: cs)
      | .error e => .error e

/-- The operand tokens a line uses: at most three, the later ones dropped unclassified (R58). -/
def operandTokens (line : Text) : List Text := (tokens isOperandSep (afterOpcode line)).take 3

/-! ## The whole line (R49) -/

/-- The name a line defines, where it is a Label Definition (R53): exactly one whitespace-delimited token, whose last
byte is a colon. The Label Resolver applies this test and no other (R102). -/
def labelName (line : Text) : Option Text :=
  match tokens isWs line with
  | [t] => if t.getLast? = some 0x3A#8 then some t.dropLast else none
  | _ => none

/-- A line that is no Label Definition (R54 to R64). -/
def decodeOperation (cfg : Config) (line : Text) : DecodeResult :=
  match tokens isWs line with
  | [] => .instr (.unrecognized [])
  | optok :: _ =>
    match classifyFrom cfg 0 (operandTokens line) with
    | .ok ops => .instr (recognize cfg (upper optok) ops)
    | .error (j, t) => .error j t

/-- `Decode(line)` (R49). It reads the line, `R` and `HAS_STORE` and nothing else. -/
def decode (cfg : Config) (line : Text) : DecodeResult :=
  match labelName line with
  | some s => .instr (.labelDef s)
  | none => decodeOperation cfg line

/-! ## The encoder: the canonical text of an instruction (R67, R70; log 10) -/

/-- The canonical spelling of an operand; a memory reference is always written with its offset. -/
def encodeOperand : Operand → Text
  | .reg i => 0x72#8 :: decText i
  | .imm v => 0x23#8 :: decText v.toNat
  | .mem base off => 0x5B#8 :: 0x72#8 :: (decText base ++ 0x2B#8 :: (decText off.toNat ++ [0x5D#8]))
  | .name s => s

/-- The operands after the mnemonic: a space before the first, a comma and a space before each other one. -/
def encodeOperands : List Operand → Text
  | [] => []
  | c :: cs => 0x20#8 :: (encodeOperand c ++ cs.flatMap fun c => 0x2C#8 :: 0x20#8 :: encodeOperand c)

/-- A mnemonic the Decoder does not recognize, `NOP` (R70), standing for every unrecognized opcode. -/
def tokNop : Text := [0x4E#8, 0x4F#8, 0x50#8]

/-- The canonical line of an instruction. -/
def encode : Instr → Text
  | .movi ops => tokMovi ++ encodeOperands ops
  | .load ops => tokLoad ++ encodeOperands ops
  | .store ops => tokStore ++ encodeOperands ops
  | .add ops => tokAdd ++ encodeOperands ops
  | .dec ops => tokDec ++ encodeOperands ops
  | .bne ops => tokBne ++ encodeOperands ops
  | .halt ops => tokHalt ++ encodeOperands ops
  | .labelDef name => name ++ [0x3A#8]
  | .unrecognized ops => tokNop ++ encodeOperands ops

/-! ## Words of the opcode table -/

/-- The line a table word stands for: the row's number is over the bytes of the line, the first byte most significant
(R74, D37; log 4). -/
def tableLine (nbits w : Nat) : Text := natText ((nbits + 7) / 8) w

/-- What the Decoder reads from a word of the opcode table, on the machine that has every row of it (log 3). -/
def decodeTableWord (nbits w : Nat) : Option Instr :=
  match decode Config.fullTable (tableLine nbits w) with
  | .instr i => some i
  | .error _ _ => none

end Sys2Proof
end

