-- ==== Sys2Proof/Machine/State.lean ====
section
/-! DEFINITION. The state of the machine (R15) as plain data, with the parameters and the Program beside it (log 1),
its faults, and the state after construction (R31, R133). -/

namespace Sys2Proof.Machine

/-- The four flags, independent one-bit cells (R19, D32; log 28). -/
structure Flags where
  /-- Zero. -/
  z : Bool
  /-- Negative. -/
  n : Bool
  /-- Carry. -/
  c : Bool
  /-- oVerflow. -/
  v : Bool
deriving DecidableEq, Repr

/-- The two faults (R115), each with what it records. A fault is first recorded in `State.fault` by the step that
raises it, which is a next state (R116); a further step of that Aborted state answers it as an outcome (log 7). -/
inductive Fault where
  /-- Raised by the Decoder on a line with a Malformed token among its first three operand tokens (R117). Safe: the
  machine goes on nowhere, as the spec says. -/
  | decodeError (index slot : Nat) (token : Text)
  /-- Raised by LOAD and STORE when the unwrapped effective address plus 8 exceeds the memory capacity (R118). Safe:
  the machine goes on nowhere, as the spec says. -/
  | outOfBoundsMemory (index address : Nat)
deriving DecidableEq, Repr

/-- The reasons to refuse an instruction. Every instruction has its meaning, so nothing raises one. -/
inductive Refusal where
  /-- For an arm of `exec` without a meaning; raised by no arm. Safe: nothing is claimed of what follows. -/
  | notModelled (mnemonic : String)
deriving DecidableEq, Repr

/-- Data memory (R25, R35): the bytes that differ from the reset byte, by rising address (`Memory.wf`). -/
abbrev Memory := List Host.Cell

/-- What an address that is not listed reads as: the reset contents of memory (R31, R42). -/
def Memory.resetByte : Byte := 0x00#8

/-- The canonical form, above a given address: addresses strictly rising and no listed byte the reset byte. -/
def Memory.wfFrom : Option Nat → Memory → Bool
  | _, [] => true
  | none, (a, b) :: m => b != Memory.resetByte && Memory.wfFrom (some a) m
  | some lo, (a, b) :: m => decide (lo < a) && b != Memory.resetByte && Memory.wfFrom (some a) m

/-- The canonical form of memory: equal memories are equal data. -/
def Memory.wf (m : Memory) : Bool := Memory.wfFrom none m

/-- The machine's state: the fields of R15, and the configuration it was built with and the Program it was given. -/
structure State where
  /-- The parameters (R8); not state of the spec, and changed by no step (log 1). -/
  cfg : Config
  /-- The Program (R27); not state of the spec, and changed by no step (log 1). -/
  program : List Text
  /-- General registers `x[0]` to `x[R-1]` (R16, R17). -/
  x : List Word
  /-- Vector registers `v[0]` to `v[V-1]` (R18). -/
  v : List VWord
  /-- Flags (R19). -/
  flags : Flags
  /-- Data memory (R25). -/
  mem : Memory
  /-- Program counter, a line index (R21). -/
  pc : Nat
  /-- Set by HALT (R23). -/
  halted : Bool
  /-- The fatal error that ended the run (R24). -/
  fault : Option Fault
  /-- The execution log, oldest entry first (R26). -/
  log : List Text
deriving DecidableEq, Repr

/-- Construction, the hardware's only reset (R31, R133), for given parameters; no Program has been supplied yet. -/
def State.construct (cfg : Config) : State where
  cfg := cfg
  program := []
  x := List.replicate cfg.numRegs 0#64
  v := List.replicate cfg.numVRegs 0#128
  flags := { z := false, n := false, c := false, v := false }
  mem := []
  pc := 0
  halted := false
  fault := none
  log := []

/-- The machine right after reset, with the default parameters (R8, R31; log 2). -/
def State.reset : State := State.construct Config.default

end Sys2Proof.Machine
end

