-- ==== Sys2Proof/Machine/Ops.lean ====
section
/-! DEFINITION. The named operations over registers, memory, the log and the program counter; raising a fault, which is
all the exception entry this hardware has (R116, R124); and what the Controller does with a ControlEffect (R76, R106). -/

namespace Sys2Proof.Machine

/-- How every meaning ends. -/
abbrev Result := Host.Outcome State Fault Refusal

/-! ## Data memory (R35 to R41) -/

/-- One byte of memory. -/
def Memory.read : Memory → Nat → Byte
  | [], _ => Memory.resetByte
  | (c, d) :: m, a => if a = c then d else Memory.read m a

/-- Write one byte, keeping the canonical form: writing the reset byte removes the entry. -/
def Memory.write : Memory → Nat → Byte → Memory
  | [], a, b => if b = Memory.resetByte then [] else [(a, b)]
  | (c, d) :: m, a, b =>
    if a < c then (if b = Memory.resetByte then (c, d) :: m else (a, b) :: (c, d) :: m)
    else if a = c then (if b = Memory.resetByte then m else (a, b) :: m)
    else (c, d) :: Memory.write m a b

/-- Write a sequence of bytes at rising addresses. -/
def Memory.writeBytes : Memory → Nat → List Byte → Memory
  | m, _, [] => m
  | m, a, b :: bs => Memory.writeBytes (Memory.write m a b) (a + 1) bs

/-- The `n` bytes at rising addresses. -/
def Memory.readBytes (m : Memory) (a : Nat) : Nat → List Byte
  | 0 => []
  | n + 1 => Memory.read m a :: Memory.readBytes m (a + 1) n

/-- The number that bytes spell, least significant byte first (R36). -/
def leNat : List Byte → Nat
  | [] => 0
  | b :: bs => b.toNat + 256 * leNat bs

/-- The `n` low bytes of a number, least significant byte first (R36). -/
def leBytes : Nat → Nat → List Byte
  | 0, _ => []
  | n + 1, k => BitVec.ofNat 8 k :: leBytes n (k / 256)

/-- `MemRead(EA, 8)` (R38). Its callers have checked the bounds (R37, log 9). -/
def Memory.readWord (m : Memory) (ea : Nat) : Word := BitVec.ofNat 64 (leNat (Memory.readBytes m ea 8))

/-- `MemWrite(EA, 8, v)` (R39). Its callers have checked the bounds (R37, log 9). -/
def Memory.writeWord (m : Memory) (ea : Nat) (v : Word) : Memory := Memory.writeBytes m ea (leBytes 8 v.toNat)

/-- The bounds check of an 8-byte access (R37). -/
def State.inBounds (s : State) (ea : Nat) : Bool := ea + 8 ≤ s.cfg.memSize

/-- `MemWrite` on the state: no other field changes (R39). -/
def State.storeWord (s : State) (ea : Nat) (v : Word) : State := { s with mem := s.mem.writeWord ea v }

/-! ## Registers and flags (R10, R16, R17) -/

/-- Read a general register; no register is hardwired (R17). Past the file, which no decoded operand names, the value
is 0 (log 8). -/
def State.readReg (s : State) (i : Nat) : Word := s.x.getD i 0#64

/-- Write a general register; past the file, which no decoded operand names, nothing is written (log 8). -/
def State.writeReg (s : State) (i : Nat) (v : Word) : State := { s with x := s.x.set i v }

/-- Write all four flags together (R83). -/
def State.writeFlags (s : State) (f : Flags) : State := { s with flags := f }

/-! ## Fetch and the execution log (R26, R84, R106) -/

/-- The line at `pc`, or the empty line where `pc` is past the Program, which no step fetches (log 12). -/
def State.line (s : State) : Text := s.program.getD s.pc []

/-- Append the raw line to the log, before any other effect of an Operation (R77, R84, R85). -/
def State.dispatched (s : State) : State := { s with log := s.log ++ [s.line] }

/-! ## Ending an instruction (R76, R106, R116) -/

/-- What the Execution Unit hands back to the Controller (R75, R76). -/
inductive ControlEffect where
  /-- Continue: advance `pc` by 1. -/
  | advance
  /-- Jump(target): set `pc`, no implicit + 1. -/
  | jump (target : Nat)
  /-- Halt. -/
  | halt
  /-- A fault instead of an effect. -/
  | fault (f : Fault)
deriving DecidableEq, Repr

/-- `raise F(info)` (R116): the fault is recorded and nothing else changes; no handler runs and no state is saved
anywhere else (R124). There is no return from it (R125). -/
def State.raise (s : State) (f : Fault) : State := { s with fault := some f }

/-- The Controller applies a ControlEffect (R106). -/
def State.apply (s : State) : ControlEffect → State
  | .advance => { s with pc := s.pc + 1 }
  | .jump target => { s with pc := target }
  | .halt => { s with halted := true }
  | .fault f => s.raise f

/-- End a step: the state with the effect applied. Every meaning ends here. -/
def finish (s : State) (e : ControlEffect) : Result := .next (s.apply e)

end Sys2Proof.Machine
end

