-- ==== Sys2Proof/Machine/Controller.lean ====
section
/-! DEFINITION. The Controller around `Execute`: the run status (R105), what a step does with a line that does not
decode (R117) and in an ended run (R108), and what the host may do between runs (R6, R135, R137). -/

namespace Sys2Proof.Machine

/-- The four run statuses (R105). -/
inductive Status where
  | running
  | halted
  | terminated
  | aborted
deriving DecidableEq, Repr

/-- `Status(state, N)` (R105). -/
def State.status (s : State) : Status :=
  if s.fault.isSome then .aborted
  else if s.halted then .halted
  else if s.program.length ≤ s.pc then .terminated
  else .running

/-- A step whose line does not decode (R106, R117): DecodeError is raised and nothing else changes; it is not logged. -/
def decodeFailed (slot : Nat) (token : Text) (s : State) : Result :=
  finish s (.fault (.decodeError s.pc slot token))

/-- A step of a Halted or Terminated run: the state stays as it is (R108; log 6). -/
def ended (s : State) : Result := .next s

/-- A step of an Aborted run: the machine stops with the fault that `fault` records (R116; log 7). -/
def abortedStep (s : State) : Result :=
  match s.fault with
  | some f => .fault f
  | none => .next s

/-! ## The host's transactions -/

/-- Preload one byte of data memory, between construction and run (R6 (b), R137); an address past the capacity exists
in no sense, and nothing is written (R35; log 27). -/
def State.preload (s : State) (a : Nat) (b : Byte) : State :=
  if a < s.cfg.memSize then { s with mem := s.mem.write a b } else s

/-- Run start with the Program the host supplies (R6 (c), R107 step 2, R135): `pc`, `halted` and `fault` only. -/
def State.runStart (s : State) (program : List Text) : State :=
  { s with program := program, pc := 0, halted := false, fault := none }

/-- The code of a fault (R115). -/
def Fault.code : Fault → Nat
  | .decodeError _ _ _ => 1
  | .outOfBoundsMemory _ _ => 2

/-- The status word of R115: 0 where there is no fault. -/
def State.faultCode (s : State) : Nat :=
  match s.fault with
  | some f => f.code
  | none => 0

/-- The Program with one line put at an index; lines missing before it are empty lines. -/
def placeLineAt : List Text → Nat → Text → List Text
  | [], 0, line => [line]
  | [], k + 1, line => [] :: placeLineAt [] k line
  | _ :: rest, 0, line => line :: rest
  | l :: rest, k + 1, line => l :: placeLineAt rest k line

/-- The state whose next step fetches the given line: the line stands at `pc`, the run is Running, and STORE is
recognized where the line needs it (log 3, log 5). -/
def State.placeLine (s : State) (line : Text) (needsStore : Bool) : State :=
  { s with
    program := placeLineAt s.program s.pc line
    halted := false
    fault := none
    cfg := { s.cfg with hasStore := s.cfg.hasStore || needsStore } }

end Sys2Proof.Machine
end

