-- ==== Sys2Proof/Machine/Flags.lean ====
section
/-! DEFINITION. The flag function of the hardware: `AddFlags` (R82), used by ADD and DEC alone. -/

namespace Sys2Proof.Machine

/-- `AddFlags(a, b)` (R82): the 64-bit sum and the four flags, from the exact sum. -/
def addFlags (a b : Word) : Word × Flags :=
  let wide := a.toNat + b.toNat
  let sum := BitVec.ofNat 64 wide
  (sum,
    { z := sum == 0#64
      n := sum.msb
      c := 2 ^ 64 ≤ wide
      v := a.msb == b.msb && sum.msb != a.msb })

end Sys2Proof.Machine
end

