-- ==== Sys2Proof/Machine/Operands.lean ====
section
/-! DEFINITION. Operand slots: what an opcode reads from slot `j`, and the default it takes where the operand is absent
or of another kind (R79 to R81, R120; log 16); and the one addressing mode (R88). -/

namespace Sys2Proof.Machine

/-- `RegSlot` (R79): a register index, 0 by default. -/
def regSlot (ops : List Operand) (j : Nat) : Nat :=
  match ops[j]? with
  | some (.reg i) => i
  | _ => 0

/-- `ImmSlot` (R79): an immediate, 0 by default. -/
def immSlot (ops : List Operand) (j : Nat) : Word :=
  match ops[j]? with
  | some (.imm v) => v
  | _ => 0#64

/-- `MemSlot` (R79): base register and offset, both 0 by default. -/
def memSlot (ops : List Operand) (j : Nat) : Nat × Word :=
  match ops[j]? with
  | some (.mem base off) => (base, off)
  | _ => (0, 0#64)

/-- `NameSlot` (R79, R81): a name, empty by default. -/
def nameSlot (ops : List Operand) (j : Nat) : Text :=
  match ops[j]? with
  | some (.name s) => s
  | _ => []

/-- `ValSlot` (R80): a register's content or an immediate; the value 0, not register 0, by default. -/
def valSlot (s : State) (ops : List Operand) (j : Nat) : Word :=
  match ops[j]? with
  | some (.reg i) => s.readReg i
  | some (.imm v) => v
  | _ => 0#64

/-- The effective address of the memory reference in slot `j` (R88): base register plus offset as a natural number,
never wrapped to 64 bits. -/
def effectiveAddress (s : State) (ops : List Operand) (j : Nat) : Nat :=
  (s.readReg (memSlot ops j).1).toNat + (memSlot ops j).2.toNat

end Sys2Proof.Machine
end

