-- ==== Sys2Proof/Machine/Arithmetic.lean ====
section
/-! DEFINITION. The integer arithmetic family: ADD and DEC (43_arithmetic.md). -/

namespace Sys2Proof.Machine

/-- Write the sum of two addends, read before, to a register, and all four flags (R82, R85). -/
def addInto (s : State) (rd : Nat) (a b : Word) : Result :=
  finish ((s.dispatched.writeReg rd (addFlags a b).1).writeFlags (addFlags a b).2) .advance

/-- ADD (R91). -/
def execAdd (ops : List Operand) (s : State) : Result :=
  addInto s (regSlot ops 0) (s.readReg (regSlot ops 1)) (valSlot s ops 2)

/-- DEC (R92): ADD of 2^64 - 1, for the result and for all four flags (D18; log 17). -/
def execDec (ops : List Operand) (s : State) : Result :=
  addInto s (regSlot ops 0) (s.readReg (regSlot ops 0)) (BitVec.allOnes 64)

end Sys2Proof.Machine
end

