-- ==== Sys2Proof/Machine/Labels.lean ====
section
/-! DEFINITION. The Label Resolver (R101 to R104): a function of the Program alone. -/

namespace Sys2Proof.Machine

/-- A finite map from names to line indices (R101). -/
abbrev LabelMap := List (Text × Nat)

/-- `labels[s] <- i`: replaces any earlier entry for the name (R102). -/
def insertLabel (labels : LabelMap) (s : Text) (i : Nat) : LabelMap := (s, i) :: labels.filter fun e => e.1 != s

/-- The forward pass from line index `i` on (R102): only the label-definition test is applied to a line. -/
def resolveFrom : Nat → List Text → LabelMap → LabelMap
  | _, [], labels => labels
  | i, line :: rest, labels =>
    match labelName line with
    | some s => resolveFrom (i + 1) rest (insertLabel labels s i)
    | none => resolveFrom (i + 1) rest labels

/-- `Resolve(program)` (R102). -/
def resolve (program : List Text) : LabelMap := resolveFrom 0 program []

/-- The entry of a name, where the map has one: names are compared byte for byte (R103). -/
def labelIndex? (labels : LabelMap) (s : Text) : Option Nat := (labels.find? fun e => e.1 == s).map (·.2)

/-- `Lookup(labels, s)` (R103): line 0 where the name has no entry (R121; log 19). -/
def lookup (labels : LabelMap) (s : Text) : Nat := (labelIndex? labels s).getD 0

end Sys2Proof.Machine
end

