-- ==== Sys2Proof/Machine/Control.lean ====
section
/-! DEFINITION. The control family: BNE, HALT, the unrecognized opcode and the label line (44_control.md). -/

namespace Sys2Proof.Machine

/-- BNE (R96): taken when Z is clear, to the label's own line; line 0 for a name without a label (R103). -/
def execBne (ops : List Operand) (s : State) : Result :=
  if s.flags.z then finish s.dispatched .advance
  else finish s.dispatched (.jump (lookup (resolve s.program) (nameSlot ops 0)))

/-- HALT (R97): `pc` is not changed (D23; log 20). No slot is read. -/
def execHalt (_ops : List Operand) (s : State) : Result := finish s.dispatched .halt

/-- The label line (R99): one step that only advances `pc`; it is not logged and defines nothing when reached. -/
def execLabelDef (_name : Text) (s : State) : Result := finish s .advance

/-- The unrecognized opcode (R98): logged and passed over. No slot is read. -/
def execUnrecognized (_ops : List Operand) (s : State) : Result := finish s.dispatched .advance

end Sys2Proof.Machine
end

