-- ==== Sys2Proof/Machine/LoadStore.lean ====
section
/-! DEFINITION. The memory access family: LOAD and STORE (42_load_store.md). -/

namespace Sys2Proof.Machine

/-- LOAD (R89): 8 little-endian bytes into the register of slot 0, or OutOfBoundsMemory before any byte is read. -/
def execLoad (ops : List Operand) (s : State) : Result :=
  if s.inBounds (effectiveAddress s ops 1) then
    finish (s.dispatched.writeReg (regSlot ops 0) (s.mem.readWord (effectiveAddress s ops 1))) .advance
  else finish s.dispatched (.fault (.outOfBoundsMemory s.pc (effectiveAddress s ops 1)))

/-- STORE (R90): the register of slot 0 as 8 little-endian bytes, or OutOfBoundsMemory before any byte is written. -/
def execStore (ops : List Operand) (s : State) : Result :=
  if s.inBounds (effectiveAddress s ops 1) then
    finish (s.dispatched.storeWord (effectiveAddress s ops 1) (s.readReg (regSlot ops 0))) .advance
  else finish s.dispatched (.fault (.outOfBoundsMemory s.pc (effectiveAddress s ops 1)))

end Sys2Proof.Machine
end

