-- ==== Sys2Proof/Machine/Move.lean ====
section
/-! DEFINITION. The move family: MOVI (41_move.md). -/

namespace Sys2Proof.Machine

/-- MOVI (R87): the whole 64-bit immediate into the register of slot 0; no flag. -/
def execMovi (ops : List Operand) (s : State) : Result :=
  finish (s.dispatched.writeReg (regSlot ops 0) (immSlot ops 1)) .advance

end Sys2Proof.Machine
end

