-- ==== Sys2Proof/Machine/Dispatch.lean ====
section
/-! DEFINITION. One arm per row of the opcode table (R77). -/

namespace Sys2Proof.Machine

/-- `Execute` and the application of its ControlEffect (R75, R77, R106), for a decoded line. -/
def exec (i : Instr) (s : State) : Host.Outcome State Fault Refusal :=
  match i with
  | .movi ops => Sys2Proof.Machine.execMovi ops s
  | .load ops => Sys2Proof.Machine.execLoad ops s
  | .store ops => Sys2Proof.Machine.execStore ops s
  | .add ops => Sys2Proof.Machine.execAdd ops s
  | .dec ops => Sys2Proof.Machine.execDec ops s
  | .bne ops => Sys2Proof.Machine.execBne ops s
  | .halt ops => Sys2Proof.Machine.execHalt ops s
  | .labelDef name => Sys2Proof.Machine.execLabelDef name s
  | .unrecognized ops => Sys2Proof.Machine.execUnrecognized ops s

end Sys2Proof.Machine
end

