-- ==== Sys2Proof/Machine/Step.lean ====
section
/-! DEFINITION. One step of the Controller (R106): fetch the line at `pc`, decode it, execute it. -/

namespace Sys2Proof.Machine

/-- `Step` (R106), taken in status Running; what it answers in an ended run is `ended` or `abortedStep`. -/
def step (s : State) : Host.Outcome State Fault Refusal :=
  match s.status with
  | .aborted => abortedStep s
  | .halted => ended s
  | .terminated => ended s
  | .running =>
    match decode s.cfg s.line with
    | .error slot token => decodeFailed slot token s
    | .instr i => exec i s

/-- Whether a table word is a STORE, which only a machine with `HAS_STORE` fetches as one (log 3). -/
def isTableStore (nbits w : Nat) : Bool :=
  match decodeTableWord nbits w with
  | some (.store _) => true
  | _ => false

/-- The state whose next step runs the instruction of a table word (R74; log 3, log 4, log 5). -/
def State.withFetchWord (s : State) (nbits w : Nat) : State :=
  s.placeLine (tableLine nbits w) (isTableStore nbits w)

end Sys2Proof.Machine
end

