-- ==== Sys2Proof/Machine/Run.lean ====
section
/-! DEFINITION. The run loop (R107), by fuel: the hardware has no step limit (R109), so a run that is still Running when
the fuel is spent is no result. -/

namespace Sys2Proof.Machine

/-- Step while the status is Running (R107 step 3). -/
def runLoop : Nat → State → State
  | 0, s => s
  | fuel + 1, s =>
    match s.status with
    | .running =>
      match step s with
      | .next t => runLoop fuel t
      | .fault _ => s
      | .refused _ => s
    | .halted => s
    | .terminated => s
    | .aborted => s

/-- `Run(state, program)` (R107): run start, then the loop; the labels are a function of the Program (R28, log 26). -/
def run (fuel : Nat) (s : State) (program : List Text) : State := runLoop fuel (s.runStart program)

end Sys2Proof.Machine
end

