-- ==== Sys2Proof/Safety.lean ====
section
/-! DEFINITION. The terms claims use: the invariant of the machine (R32, R110), the predicates a claim may require of a
Program (R112), the part of the state a program can observe (R18, R20, R26), and a run that ends well (R116). -/

namespace Sys2Proof.Machine

/-! ## The invariant -/

/-- Every listed address of data memory exists (R35). -/
def Memory.within (m : Memory) (size : Nat) : Prop := ∀ cell ∈ m, cell.1 < size

/-- What a recorded fault says of the state that holds it: the faulting line is `program[pc]`, the slot is one of
three, the address is out of bounds (R32, R117, R118). -/
def Fault.fits (s : State) : Fault → Prop
  | .decodeError index slot token =>
    index = s.pc ∧ index < s.program.length ∧ decode s.cfg s.line = .error slot token ∧ slot < 3
  | .outOfBoundsMemory index address => index = s.pc ∧ index < s.program.length ∧ s.cfg.memSize < address + 8

/-- What holds of every state a run reaches (R32, R110), with the canonical form of memory. -/
structure State.Inv (s : State) : Prop where
  /-- The parameters are legal (R8). -/
  cfg_wf : s.cfg.wf
  /-- The Program has fewer than `2^64` lines (R8, R21). -/
  program_fits : programFits s.program
  /-- There are `R` general registers (R16). -/
  regs_length : s.x.length = s.cfg.numRegs
  /-- There are `V` vector registers, all zero (R18, R32). -/
  vregs_zero : s.v = List.replicate s.cfg.numVRegs 0#128
  /-- Memory is in its canonical form. -/
  mem_wf : s.mem.wf = true
  /-- Memory has `M` bytes (R25). -/
  mem_within : s.mem.within s.cfg.memSize
  /-- `pc <= N` (R21, R110). -/
  pc_le : s.pc ≤ s.program.length
  /-- HALT stands at `pc` of a halted run, whose line is one of the Program (R97, R110). -/
  halted_pc : s.halted = true → s.pc < s.program.length
  /-- A recorded fault is precise: `halted` is as before the faulting step, false (R32, R116). -/
  fault_not_halted : s.fault.isSome = true → s.halted = false
  /-- A recorded fault fits the state. -/
  fault_fits : ∀ f, s.fault = some f → f.fits s

/-! ## Predicates over a Program (R112) -/

/-- `AllDecode` (R112): no line gives a DecodeError. -/
def allDecode (cfg : Config) (program : List Text) : Bool :=
  program.all fun line =>
    match decode cfg line with
    | .instr _ => true
    | .error _ _ => false

/-- `AllWellShaped` (R112): every line decodes, and to a well-shaped Operation where its opcode is recognized. -/
def allWellShaped (cfg : Config) (program : List Text) : Bool :=
  program.all fun line =>
    match decode cfg line with
    | .instr (.unrecognized _) => true
    | .instr i => i.wellShaped
    | .error _ _ => false

/-- `UniqueLabels` (R112): no two Label Definition lines have the same name. -/
def uniqueLabels (program : List Text) : Bool := decide (program.filterMap labelName).Nodup

/-- `LabelsResolved` (R112): every BNE's name has an entry in the label map. -/
def labelsResolved (cfg : Config) (program : List Text) : Bool :=
  program.all fun line =>
    match decode cfg line with
    | .instr (.bne ops) => (labelIndex? (resolve program) (nameSlot ops 0)).isSome
    | _ => true

/-- `NoUnknown` (R112): no line decodes to the unrecognized opcode. -/
def noUnknown (cfg : Config) (program : List Text) : Bool :=
  program.all fun line =>
    match decode cfg line with
    | .instr (.unrecognized _) => false
    | _ => true

/-! ## The opcode table -/

/-- The test of a row of the opcode table on the bytes of an opcode token (R74): its length, and match and mask over
its bytes read as one number, first byte most significant. -/
abbrev fitsRow (t : Text) (length matchValue mask : Nat) : Prop :=
  t.length = length ∧ textNat t &&& mask = matchValue

/-! ## What a program can observe -/

/-- The state with everything no instruction reads put to one fixed value: the vector registers (R18), the flags N, C
and V (R20) and the log (R26). Two states with the same view differ only there. -/
def State.view (s : State) : State :=
  { s with v := [], flags := { z := s.flags.z, n := false, c := false, v := false }, log := [] }

/-! ## Frames -/

/-- No general register outside the list changed, nor their number, nor a vector register; nor the parameters and the
Program, which no instruction reaches (R8, R18, R27). -/
def RegsUnchangedExcept (s t : State) (written : List Nat) : Prop :=
  (∀ r, r ∉ written → t.readReg r = s.readReg r) ∧ t.x.length = s.x.length ∧ t.v = s.v ∧ t.cfg = s.cfg ∧
    t.program = s.program

/-- Every byte of memory reads as before. -/
def MemUnchanged (s t : State) : Prop := ∀ a, t.mem.read a = s.mem.read a

/-- The run neither halted nor faulted. -/
def RunUnchanged (s t : State) : Prop := t.halted = s.halted ∧ t.fault = s.fault

/-! ## A safe run -/

/-- A run has ended well when its status is Halted or Terminated: Aborted is a fault in its own sense, never an end a
claim may count as good (R111, R116). -/
def State.endedWell (s : State) : Bool :=
  match s.status with
  | .halted => true
  | .terminated => true
  | .running => false
  | .aborted => false


end Sys2Proof.Machine
end

