-- ==== Sys2Proof/Laws/Memory.lean ====
section
/-! SUPPORT. Memory: every operation keeps the canonical form and the bound on addresses; what is read after a write;
equal reads mean equal memories. -/

namespace Sys2Proof.Machine

@[simp] theorem leBytes_length (n k : Nat) : (leBytes n k).length = n := by
  induction n generalizing k with
  | zero => rfl
  | succ n ih => simp [leBytes, ih]

/-! ## The canonical form -/

theorem Memory.wfFrom_weaken {m : Memory} {lo : Option Nat} (h : Memory.wfFrom lo m = true) :
    Memory.wfFrom none m = true := by
  cases m with
  | nil => simp [Memory.wfFrom]
  | cons cell m => cases lo <;> simp_all [Memory.wfFrom]

/-- Below the first listed address memory reads as the reset byte. -/
theorem Memory.read_below {m : Memory} {lo a : Nat} (h : Memory.wfFrom (some lo) m = true) (ha : a ≤ lo) :
    Memory.read m a = Memory.resetByte := by
  induction m generalizing lo with
  | nil => rfl
  | cons cell m ih =>
    obtain ⟨c, d⟩ := cell
    simp only [Memory.wfFrom, Bool.and_eq_true, decide_eq_true_eq] at h
    have hne : a ≠ c := by omega
    simp only [Memory.read, hne, if_false]
    exact ih h.2 (by omega)

theorem Memory.write_wfFrom {m : Memory} {lo : Option Nat} {a : Nat} {b : Byte} (h : Memory.wfFrom lo m = true)
    (ha : ∀ l, lo = some l → l < a) : Memory.wfFrom lo (Memory.write m a b) = true := by
  induction m generalizing lo with
  | nil =>
    by_cases hb : b = Memory.resetByte
    · simp [Memory.write, hb, Memory.wfFrom]
    · cases lo with
      | none => simp [Memory.write, hb, Memory.wfFrom]
      | some l => simp [Memory.write, hb, Memory.wfFrom, ha l rfl]
  | cons cell m ih =>
    obtain ⟨c, d⟩ := cell
    have hm : Memory.wfFrom (some c) m = true := by cases lo <;> simp_all [Memory.wfFrom]
    have hd : d ≠ Memory.resetByte := by cases lo <;> simp_all [Memory.wfFrom]
    simp only [Memory.write]
    by_cases hac : a < c
    · simp only [hac, if_true]
      by_cases hb : b = Memory.resetByte
      · simpa [hb] using h
      · cases lo with
        | none => simp [hb, Memory.wfFrom, hac, hd, hm]
        | some l => simp [hb, Memory.wfFrom, hac, hd, hm, ha l rfl]
    · simp only [hac, if_false]
      by_cases hae : a = c
      · subst hae
        simp only [if_true]
        by_cases hb : b = Memory.resetByte
        · simp only [hb, if_true]
          cases lo with
          | none => exact Memory.wfFrom_weaken hm
          | some l =>
            have hl := ha l rfl
            cases m with
            | nil => simp [Memory.wfFrom]
            | cons cell' m' =>
              simp only [Memory.wfFrom, Bool.and_eq_true, decide_eq_true_eq] at hm ⊢
              exact ⟨⟨by omega, hm.1.2⟩, hm.2⟩
        · simp only [hb, if_false]
          cases lo with
          | none => simp [Memory.wfFrom, hb, hm]
          | some l => simp [Memory.wfFrom, hb, hm, ha l rfl]
      · simp only [hae, if_false]
        have hrec : Memory.wfFrom (some c) (Memory.write m a b) = true :=
          ih hm (by intro l hl; cases hl; omega)
        cases lo with
        | none => simp [Memory.wfFrom, hd, hrec]
        | some l =>
          have hlc : l < c := by simp_all [Memory.wfFrom]
          simp [Memory.wfFrom, hd, hrec, hlc]

/-- Writing a byte keeps the canonical form. -/
theorem Memory.write_wf {m : Memory} (a : Nat) (b : Byte) (h : m.wf = true) : (Memory.write m a b).wf = true :=
  Memory.write_wfFrom h (by simp)

/-- Writing bytes keeps the canonical form. -/
theorem Memory.writeBytes_wf {m : Memory} (a : Nat) (bs : List Byte) (h : m.wf = true) :
    (Memory.writeBytes m a bs).wf = true := by
  induction bs generalizing m a with
  | nil => exact h
  | cons b bs ih => exact ih (a + 1) (Memory.write_wf a b h)

/-- `MemWrite` keeps the canonical form. -/
theorem Memory.writeWord_wf {m : Memory} (ea : Nat) (w : Word) (h : m.wf = true) :
    (Memory.writeWord m ea w).wf = true := Memory.writeBytes_wf ea _ h

/-! ## The bound on addresses -/

theorem Memory.write_within {m : Memory} {size a : Nat} (b : Byte) (h : m.within size) (ha : a < size) :
    (Memory.write m a b).within size := by
  induction m with
  | nil => by_cases hb : b = Memory.resetByte <;> simp [Memory.write, hb, Memory.within, ha]
  | cons cell m ih =>
    obtain ⟨c, d⟩ := cell
    have hm : Memory.within m size := fun e he => h e (List.mem_cons_of_mem _ he)
    have hc : c < size := h (c, d) List.mem_cons_self
    have hrec := ih hm
    simp only [Memory.write]
    split_ifs <;> intro e he <;> try simp only [List.mem_cons] at he
    · rcases he with rfl | he
      exacts [hc, hm e he]
    · rcases he with rfl | rfl | he
      exacts [ha, hc, hm e he]
    · exact hm e he
    · rcases he with rfl | he
      exacts [ha, hm e he]
    · rcases he with rfl | he
      exacts [hc, hrec e he]

theorem Memory.writeBytes_within {m : Memory} {size a : Nat} (bs : List Byte) (h : m.within size)
    (ha : a + bs.length ≤ size) : (Memory.writeBytes m a bs).within size := by
  induction bs generalizing m a with
  | nil => exact h
  | cons b bs ih =>
    simp only [List.length_cons] at ha
    exact ih (Memory.write_within b h (by omega)) (by omega)

/-- `MemWrite` within bounds keeps the bound on addresses. -/
theorem Memory.writeWord_within {m : Memory} {size ea : Nat} (w : Word) (h : m.within size) (hb : ea + 8 ≤ size) :
    (Memory.writeWord m ea w).within size := Memory.writeBytes_within _ h (by simpa using hb)

/-! ## Reading after writing -/

/-- A byte read after a byte write: the byte written at its address, the old byte everywhere else. -/
theorem Memory.read_write {m : Memory} (a : Nat) (b : Byte) (k : Nat) (h : m.wf = true) :
    Memory.read (Memory.write m a b) k = if k = a then b else Memory.read m k := by
  suffices hgen : ∀ lo, Memory.wfFrom lo m = true →
      Memory.read (Memory.write m a b) k = if k = a then b else Memory.read m k from hgen none h
  clear h
  induction m with
  | nil =>
    intro lo _
    by_cases hb : b = Memory.resetByte
    · simp [Memory.write, hb, Memory.read]
    · simp [Memory.write, hb, Memory.read]
  | cons cell m ih =>
    obtain ⟨c, d⟩ := cell
    intro lo hlo
    have hm : Memory.wfFrom (some c) m = true := by cases lo <;> simp_all [Memory.wfFrom]
    simp only [Memory.write]
    by_cases hac : a < c
    · have hread : Memory.read m a = Memory.resetByte := Memory.read_below hm (by omega)
      have hne : a ≠ c := by omega
      by_cases hb : b = Memory.resetByte
      · by_cases hk : k = a
        · subst hk; simp [hac, hb, Memory.read, hne, hread]
        · simp [hac, hb, hk]
      · by_cases hk : k = a
        · subst hk; simp [hac, hb, Memory.read]
        · simp [hac, hb, hk, Memory.read]
    · by_cases hae : a = c
      · subst hae
        by_cases hb : b = Memory.resetByte
        · by_cases hk : k = a
          · subst hk; simp [hb, Memory.read_below hm (le_refl k)]
          · simp [hb, hk, Memory.read]
        · by_cases hk : k = a
          · subst hk; simp [hb, Memory.read]
          · simp [hb, hk, Memory.read]
      · by_cases hkc : k = c
        · subst hkc
          have : k ≠ a := fun h => hae h.symm
          simp [hac, hae, Memory.read, this]
        · simp [hac, hae, Memory.read, hkc, ih (some c) hm]

/-- A byte read after a sequence of bytes is written. -/
theorem Memory.read_writeBytes {m : Memory} (a : Nat) (bs : List Byte) (k : Nat) (h : m.wf = true) :
    Memory.read (Memory.writeBytes m a bs) k =
      if a ≤ k ∧ k < a + bs.length then bs.getD (k - a) 0 else Memory.read m k := by
  induction bs generalizing m a with
  | nil =>
    have : ¬ (a ≤ k ∧ k < a + ([] : List Byte).length) := by simp only [List.length_nil]; omega
    rw [if_neg this, Memory.writeBytes]
  | cons b bs ih =>
    simp only [Memory.writeBytes, ih (a + 1) (Memory.write_wf a b h), Memory.read_write a b k h, List.length_cons]
    by_cases hka : k = a
    · subst hka
      have h1 : ¬ (k + 1 ≤ k ∧ k < k + 1 + bs.length) := by omega
      have h2 : k ≤ k ∧ k < k + (bs.length + 1) := by omega
      rw [if_neg h1, if_pos rfl, if_pos h2, Nat.sub_self, List.getD_cons_zero]
    · by_cases hin : a + 1 ≤ k ∧ k < a + 1 + bs.length
      · have h2 : a ≤ k ∧ k < a + (bs.length + 1) := by omega
        have h3 : k - a = (k - (a + 1)) + 1 := by omega
        rw [if_pos hin, if_pos h2, h3, List.getD_cons_succ]
      · have h2 : ¬ (a ≤ k ∧ k < a + (bs.length + 1)) := by omega
        rw [if_neg hin, if_neg hka, if_neg h2]

/-! ## Bytes of a number -/

/-- The little-endian bytes of a number spell it, modulo the width. -/
theorem leNat_leBytes (n k : Nat) : leNat (leBytes n k) = k % 256 ^ n := by
  induction n generalizing k with
  | zero => simp [leBytes, leNat, Nat.mod_one]
  | succ n ih =>
    have hmod : k % 256 ^ (n + 1) = k % 256 + 256 * (k / 256 % 256 ^ n) := by rw [Nat.pow_succ', Nat.mod_mul]
    simp only [leBytes, leNat, ih, BitVec.toNat_ofNat, hmod]

@[simp] theorem Memory.readBytes_length (m : Memory) (a n : Nat) : (Memory.readBytes m a n).length = n := by
  induction n generalizing a with
  | zero => rfl
  | succ n ih => simp [Memory.readBytes, ih]

/-- The bytes read depend only on the bytes at those addresses. -/
theorem Memory.readBytes_congr {m m' : Memory} {a n : Nat}
    (h : ∀ k, a ≤ k → k < a + n → Memory.read m k = Memory.read m' k) :
    Memory.readBytes m a n = Memory.readBytes m' a n := by
  induction n generalizing a with
  | zero => rfl
  | succ n ih =>
    simp only [Memory.readBytes, h a (le_refl a) (by omega)]
    rw [ih fun k hk hk' => h k (by omega) (by omega)]

/-- The reset memory is canonical. -/
theorem Memory.nil_wf : Memory.wf [] = true := rfl

end Sys2Proof.Machine
end

