-- ==== Sys2Proof/Laws/State.lean ====
section
/-! SUPPORT. One lemma per field per update of the state, so that no proof unfolds a record update. -/

namespace Sys2Proof.Machine

@[simp] theorem State.dispatched_cfg (s : State) : (s.dispatched).cfg = s.cfg := rfl
@[simp] theorem State.dispatched_program (s : State) : (s.dispatched).program = s.program := rfl
@[simp] theorem State.dispatched_x (s : State) : (s.dispatched).x = s.x := rfl
@[simp] theorem State.dispatched_v (s : State) : (s.dispatched).v = s.v := rfl
@[simp] theorem State.dispatched_flags (s : State) : (s.dispatched).flags = s.flags := rfl
@[simp] theorem State.dispatched_mem (s : State) : (s.dispatched).mem = s.mem := rfl
@[simp] theorem State.dispatched_pc (s : State) : (s.dispatched).pc = s.pc := rfl
@[simp] theorem State.dispatched_halted (s : State) : (s.dispatched).halted = s.halted := rfl
@[simp] theorem State.dispatched_fault (s : State) : (s.dispatched).fault = s.fault := rfl
@[simp] theorem State.dispatched_log (s : State) : (s.dispatched).log = s.log ++ [s.line] := rfl

@[simp] theorem State.writeReg_cfg (s : State) (i : Nat) (w : Word) : (s.writeReg i w).cfg = s.cfg := rfl
@[simp] theorem State.writeReg_program (s : State) (i : Nat) (w : Word) : (s.writeReg i w).program = s.program := rfl
@[simp] theorem State.writeReg_x (s : State) (i : Nat) (w : Word) : (s.writeReg i w).x = s.x.set i w := rfl
@[simp] theorem State.writeReg_v (s : State) (i : Nat) (w : Word) : (s.writeReg i w).v = s.v := rfl
@[simp] theorem State.writeReg_flags (s : State) (i : Nat) (w : Word) : (s.writeReg i w).flags = s.flags := rfl
@[simp] theorem State.writeReg_mem (s : State) (i : Nat) (w : Word) : (s.writeReg i w).mem = s.mem := rfl
@[simp] theorem State.writeReg_pc (s : State) (i : Nat) (w : Word) : (s.writeReg i w).pc = s.pc := rfl
@[simp] theorem State.writeReg_halted (s : State) (i : Nat) (w : Word) : (s.writeReg i w).halted = s.halted := rfl
@[simp] theorem State.writeReg_fault (s : State) (i : Nat) (w : Word) : (s.writeReg i w).fault = s.fault := rfl
@[simp] theorem State.writeReg_log (s : State) (i : Nat) (w : Word) : (s.writeReg i w).log = s.log := rfl

@[simp] theorem State.writeFlags_cfg (s : State) (f : Flags) : (s.writeFlags f).cfg = s.cfg := rfl
@[simp] theorem State.writeFlags_program (s : State) (f : Flags) : (s.writeFlags f).program = s.program := rfl
@[simp] theorem State.writeFlags_x (s : State) (f : Flags) : (s.writeFlags f).x = s.x := rfl
@[simp] theorem State.writeFlags_v (s : State) (f : Flags) : (s.writeFlags f).v = s.v := rfl
@[simp] theorem State.writeFlags_flags (s : State) (f : Flags) : (s.writeFlags f).flags = f := rfl
@[simp] theorem State.writeFlags_mem (s : State) (f : Flags) : (s.writeFlags f).mem = s.mem := rfl
@[simp] theorem State.writeFlags_pc (s : State) (f : Flags) : (s.writeFlags f).pc = s.pc := rfl
@[simp] theorem State.writeFlags_halted (s : State) (f : Flags) : (s.writeFlags f).halted = s.halted := rfl
@[simp] theorem State.writeFlags_fault (s : State) (f : Flags) : (s.writeFlags f).fault = s.fault := rfl
@[simp] theorem State.writeFlags_log (s : State) (f : Flags) : (s.writeFlags f).log = s.log := rfl

@[simp] theorem State.storeWord_cfg (s : State) (ea : Nat) (w : Word) : (s.storeWord ea w).cfg = s.cfg := rfl
@[simp] theorem State.storeWord_program (s : State) (ea : Nat) (w : Word) : (s.storeWord ea w).program = s.program := rfl
@[simp] theorem State.storeWord_x (s : State) (ea : Nat) (w : Word) : (s.storeWord ea w).x = s.x := rfl
@[simp] theorem State.storeWord_v (s : State) (ea : Nat) (w : Word) : (s.storeWord ea w).v = s.v := rfl
@[simp] theorem State.storeWord_flags (s : State) (ea : Nat) (w : Word) : (s.storeWord ea w).flags = s.flags := rfl
@[simp] theorem State.storeWord_mem (s : State) (ea : Nat) (w : Word) : (s.storeWord ea w).mem = s.mem.writeWord ea w := rfl
@[simp] theorem State.storeWord_pc (s : State) (ea : Nat) (w : Word) : (s.storeWord ea w).pc = s.pc := rfl
@[simp] theorem State.storeWord_halted (s : State) (ea : Nat) (w : Word) : (s.storeWord ea w).halted = s.halted := rfl
@[simp] theorem State.storeWord_fault (s : State) (ea : Nat) (w : Word) : (s.storeWord ea w).fault = s.fault := rfl
@[simp] theorem State.storeWord_log (s : State) (ea : Nat) (w : Word) : (s.storeWord ea w).log = s.log := rfl

@[simp] theorem State.raise_cfg (s : State) (f : Fault) : (s.raise f).cfg = s.cfg := rfl
@[simp] theorem State.raise_program (s : State) (f : Fault) : (s.raise f).program = s.program := rfl
@[simp] theorem State.raise_x (s : State) (f : Fault) : (s.raise f).x = s.x := rfl
@[simp] theorem State.raise_v (s : State) (f : Fault) : (s.raise f).v = s.v := rfl
@[simp] theorem State.raise_flags (s : State) (f : Fault) : (s.raise f).flags = s.flags := rfl
@[simp] theorem State.raise_mem (s : State) (f : Fault) : (s.raise f).mem = s.mem := rfl
@[simp] theorem State.raise_pc (s : State) (f : Fault) : (s.raise f).pc = s.pc := rfl
@[simp] theorem State.raise_halted (s : State) (f : Fault) : (s.raise f).halted = s.halted := rfl
@[simp] theorem State.raise_fault (s : State) (f : Fault) : (s.raise f).fault = some f := rfl
@[simp] theorem State.raise_log (s : State) (f : Fault) : (s.raise f).log = s.log := rfl

@[simp] theorem State.apply_cfg (s : State) (e : ControlEffect) : (s.apply e).cfg = s.cfg := by cases e <;> rfl
@[simp] theorem State.apply_program (s : State) (e : ControlEffect) : (s.apply e).program = s.program := by cases e <;> rfl
@[simp] theorem State.apply_x (s : State) (e : ControlEffect) : (s.apply e).x = s.x := by cases e <;> rfl
@[simp] theorem State.apply_v (s : State) (e : ControlEffect) : (s.apply e).v = s.v := by cases e <;> rfl
@[simp] theorem State.apply_flags (s : State) (e : ControlEffect) : (s.apply e).flags = s.flags := by cases e <;> rfl
@[simp] theorem State.apply_mem (s : State) (e : ControlEffect) : (s.apply e).mem = s.mem := by cases e <;> rfl
@[simp] theorem State.apply_log (s : State) (e : ControlEffect) : (s.apply e).log = s.log := by cases e <;> rfl
@[simp] theorem State.apply_advance_pc (s : State) : (s.apply .advance).pc = s.pc + 1 := rfl
@[simp] theorem State.apply_advance_halted (s : State) : (s.apply .advance).halted = s.halted := rfl
@[simp] theorem State.apply_advance_fault (s : State) : (s.apply .advance).fault = s.fault := rfl
@[simp] theorem State.apply_jump_pc (s : State) (t : Nat) : (s.apply (.jump t)).pc = t := rfl
@[simp] theorem State.apply_jump_halted (s : State) (t : Nat) : (s.apply (.jump t)).halted = s.halted := rfl
@[simp] theorem State.apply_jump_fault (s : State) (t : Nat) : (s.apply (.jump t)).fault = s.fault := rfl
@[simp] theorem State.apply_halt_pc (s : State) : (s.apply .halt).pc = s.pc := rfl
@[simp] theorem State.apply_halt_halted (s : State) : (s.apply .halt).halted = true := rfl
@[simp] theorem State.apply_halt_fault (s : State) : (s.apply .halt).fault = s.fault := rfl
@[simp] theorem State.apply_fault_pc (s : State) (f : Fault) : (s.apply (.fault f)).pc = s.pc := rfl
@[simp] theorem State.apply_fault_halted (s : State) (f : Fault) : (s.apply (.fault f)).halted = s.halted := rfl
@[simp] theorem State.apply_fault_fault (s : State) (f : Fault) : (s.apply (.fault f)).fault = some f := rfl

@[simp] theorem State.runStart_cfg (s : State) (p : List Text) : (s.runStart p).cfg = s.cfg := rfl
@[simp] theorem State.runStart_program (s : State) (p : List Text) : (s.runStart p).program = p := rfl
@[simp] theorem State.runStart_x (s : State) (p : List Text) : (s.runStart p).x = s.x := rfl
@[simp] theorem State.runStart_v (s : State) (p : List Text) : (s.runStart p).v = s.v := rfl
@[simp] theorem State.runStart_flags (s : State) (p : List Text) : (s.runStart p).flags = s.flags := rfl
@[simp] theorem State.runStart_mem (s : State) (p : List Text) : (s.runStart p).mem = s.mem := rfl
@[simp] theorem State.runStart_pc (s : State) (p : List Text) : (s.runStart p).pc = 0 := rfl
@[simp] theorem State.runStart_halted (s : State) (p : List Text) : (s.runStart p).halted = false := rfl
@[simp] theorem State.runStart_fault (s : State) (p : List Text) : (s.runStart p).fault = none := rfl
@[simp] theorem State.runStart_log (s : State) (p : List Text) : (s.runStart p).log = s.log := rfl

@[simp] theorem State.placeLine_cfg (s : State) (l : Text) (b : Bool) : (s.placeLine l b).cfg = { s.cfg with hasStore := s.cfg.hasStore || b } := rfl
@[simp] theorem State.placeLine_program (s : State) (l : Text) (b : Bool) : (s.placeLine l b).program = placeLineAt s.program s.pc l := rfl
@[simp] theorem State.placeLine_x (s : State) (l : Text) (b : Bool) : (s.placeLine l b).x = s.x := rfl
@[simp] theorem State.placeLine_v (s : State) (l : Text) (b : Bool) : (s.placeLine l b).v = s.v := rfl
@[simp] theorem State.placeLine_flags (s : State) (l : Text) (b : Bool) : (s.placeLine l b).flags = s.flags := rfl
@[simp] theorem State.placeLine_mem (s : State) (l : Text) (b : Bool) : (s.placeLine l b).mem = s.mem := rfl
@[simp] theorem State.placeLine_pc (s : State) (l : Text) (b : Bool) : (s.placeLine l b).pc = s.pc := rfl
@[simp] theorem State.placeLine_halted (s : State) (l : Text) (b : Bool) : (s.placeLine l b).halted = false := rfl
@[simp] theorem State.placeLine_fault (s : State) (l : Text) (b : Bool) : (s.placeLine l b).fault = none := rfl
@[simp] theorem State.placeLine_log (s : State) (l : Text) (b : Bool) : (s.placeLine l b).log = s.log := rfl

@[simp] theorem State.preload_cfg (s : State) (a : Nat) (b : Byte) : (s.preload a b).cfg = s.cfg := by
  unfold State.preload; split <;> rfl
@[simp] theorem State.preload_program (s : State) (a : Nat) (b : Byte) : (s.preload a b).program = s.program := by
  unfold State.preload; split <;> rfl
@[simp] theorem State.preload_x (s : State) (a : Nat) (b : Byte) : (s.preload a b).x = s.x := by
  unfold State.preload; split <;> rfl
@[simp] theorem State.preload_v (s : State) (a : Nat) (b : Byte) : (s.preload a b).v = s.v := by
  unfold State.preload; split <;> rfl
@[simp] theorem State.preload_flags (s : State) (a : Nat) (b : Byte) : (s.preload a b).flags = s.flags := by
  unfold State.preload; split <;> rfl
theorem State.preload_mem (s : State) (a : Nat) (b : Byte) :
    (s.preload a b).mem = if a < s.cfg.memSize then s.mem.write a b else s.mem := by unfold State.preload; split <;> rfl
@[simp] theorem State.preload_pc (s : State) (a : Nat) (b : Byte) : (s.preload a b).pc = s.pc := by
  unfold State.preload; split <;> rfl
@[simp] theorem State.preload_halted (s : State) (a : Nat) (b : Byte) : (s.preload a b).halted = s.halted := by
  unfold State.preload; split <;> rfl
@[simp] theorem State.preload_fault (s : State) (a : Nat) (b : Byte) : (s.preload a b).fault = s.fault := by
  unfold State.preload; split <;> rfl
@[simp] theorem State.preload_log (s : State) (a : Nat) (b : Byte) : (s.preload a b).log = s.log := by
  unfold State.preload; split <;> rfl

@[simp] theorem State.view_cfg (s : State) : (s.view).cfg = s.cfg := rfl
@[simp] theorem State.view_program (s : State) : (s.view).program = s.program := rfl
@[simp] theorem State.view_x (s : State) : (s.view).x = s.x := rfl
@[simp] theorem State.view_v (s : State) : (s.view).v = [] := rfl
@[simp] theorem State.view_flags (s : State) : (s.view).flags = { z := s.flags.z, n := false, c := false, v := false } := rfl
@[simp] theorem State.view_mem (s : State) : (s.view).mem = s.mem := rfl
@[simp] theorem State.view_pc (s : State) : (s.view).pc = s.pc := rfl
@[simp] theorem State.view_halted (s : State) : (s.view).halted = s.halted := rfl
@[simp] theorem State.view_fault (s : State) : (s.view).fault = s.fault := rfl
@[simp] theorem State.view_log (s : State) : (s.view).log = [] := rfl

@[simp] theorem State.construct_cfg (cfg : Config) : (State.construct cfg).cfg = cfg := rfl
@[simp] theorem State.construct_program (cfg : Config) : (State.construct cfg).program = [] := rfl
@[simp] theorem State.construct_x (cfg : Config) : (State.construct cfg).x = List.replicate cfg.numRegs 0#64 := rfl
@[simp] theorem State.construct_v (cfg : Config) : (State.construct cfg).v = List.replicate cfg.numVRegs 0#128 := rfl
@[simp] theorem State.construct_flags (cfg : Config) : (State.construct cfg).flags = { z := false, n := false, c := false, v := false } := rfl
@[simp] theorem State.construct_mem (cfg : Config) : (State.construct cfg).mem = [] := rfl
@[simp] theorem State.construct_pc (cfg : Config) : (State.construct cfg).pc = 0 := rfl
@[simp] theorem State.construct_halted (cfg : Config) : (State.construct cfg).halted = false := rfl
@[simp] theorem State.construct_fault (cfg : Config) : (State.construct cfg).fault = none := rfl
@[simp] theorem State.construct_log (cfg : Config) : (State.construct cfg).log = [] := rfl

/-! ## Reads that see through updates -/

@[simp] theorem State.dispatched_readReg (s : State) (i : Nat) : s.dispatched.readReg i = s.readReg i := rfl
@[simp] theorem State.dispatched_line (s : State) : s.dispatched.line = s.line := rfl
@[simp] theorem State.writeFlags_readReg (s : State) (f : Flags) (i : Nat) :
    (s.writeFlags f).readReg i = s.readReg i := rfl
@[simp] theorem State.storeWord_readReg (s : State) (ea : Nat) (w : Word) (i : Nat) :
    (s.storeWord ea w).readReg i = s.readReg i := rfl
@[simp] theorem State.apply_readReg (s : State) (e : ControlEffect) (i : Nat) :
    (s.apply e).readReg i = s.readReg i := by cases e <;> rfl

/-- A register write is read back, where the register exists. -/
theorem State.readReg_writeReg_self (s : State) {i : Nat} (w : Word) (h : i < s.x.length) :
    (s.writeReg i w).readReg i = w := by
  simp [State.readReg, h]

/-- A register write leaves every other register alone (R17: no register is special). -/
theorem State.readReg_writeReg_ne (s : State) {i j : Nat} (w : Word) (h : j ≠ i) :
    (s.writeReg i w).readReg j = s.readReg j := by
  simp [State.readReg, List.getElem?_set_ne h.symm, List.getD_eq_getElem?_getD]

end Sys2Proof.Machine
end

