-- ==== Sys2Proof/Laws/Exec.lean ====
section
/-! SUPPORT. What each shared operation of the execution unit answers, and what `exec` and `step` can do, said once:
later proofs cite these instead of unfolding the meanings. -/

namespace Sys2Proof.Machine

/-! ## Shared operations -/

@[simp] theorem finish_eq_next {s t : State} {e : ControlEffect} : finish s e = .next t ↔ t = s.apply e := by
  simp [finish, eq_comm]

@[simp] theorem addFlags_sum (a b : Word) : (addFlags a b).1 = a + b := by
  apply BitVec.eq_of_toNat_eq
  simp [addFlags, BitVec.toNat_add]

/-- The flags of an addition, in terms of the wrapped sum (R82). -/
theorem addFlags_flags (a b : Word) :
    (addFlags a b).2 =
      { z := a + b == 0#64, n := (a + b).msb, c := decide (2 ^ 64 ≤ a.toNat + b.toNat),
        v := a.msb == b.msb && (a + b).msb != a.msb } := by
  have h : BitVec.ofNat 64 (a.toNat + b.toNat) = a + b := addFlags_sum a b
  simp only [addFlags, h]

/-- An 8-byte access is in bounds exactly when `EA + 8 <= M` (R37). -/
@[simp] theorem State.inBounds_iff (s : State) (ea : Nat) : s.inBounds ea = true ↔ ea + 8 ≤ s.cfg.memSize := by
  simp [State.inBounds]

/-- The register of a slot exists, for the operands of a well-formed instruction: R79's default is register 0, and
there is at least one register (R8). -/
theorem regSlot_lt {cfg : Config} {ops : List Operand} (j : Nat) (hcfg : cfg.wf) (h : operandsWf cfg ops = true) :
    regSlot ops j < cfg.numRegs := by
  simp only [operandsWf, Bool.and_eq_true, List.all_eq_true] at h
  unfold regSlot
  split
  · rename_i i hi
    have := h.2 _ (List.mem_of_getElem? hi)
    simpa [Operand.wf] using this
  · exact hcfg

/-! ## The meanings: the next state of each form -/

theorem exec_movi (ops : List Operand) (s : State) :
    exec (.movi ops) s = .next ((s.dispatched.writeReg (regSlot ops 0) (immSlot ops 1)).apply .advance) := rfl

theorem exec_load_inBounds {ops : List Operand} {s : State} (h : effectiveAddress s ops 1 + 8 ≤ s.cfg.memSize) :
    exec (.load ops) s = .next
      ((s.dispatched.writeReg (regSlot ops 0) (s.mem.readWord (effectiveAddress s ops 1))).apply .advance) := by
  simp [exec, execLoad, h]

theorem exec_load_outOfBounds {ops : List Operand} {s : State} (h : s.cfg.memSize < effectiveAddress s ops 1 + 8) :
    exec (.load ops) s = .next (s.dispatched.raise (.outOfBoundsMemory s.pc (effectiveAddress s ops 1))) := by
  simp [exec, execLoad, Nat.not_le.mpr h, State.apply]

theorem exec_store_inBounds {ops : List Operand} {s : State} (h : effectiveAddress s ops 1 + 8 ≤ s.cfg.memSize) :
    exec (.store ops) s = .next
      ((s.dispatched.storeWord (effectiveAddress s ops 1) (s.readReg (regSlot ops 0))).apply .advance) := by
  simp [exec, execStore, h]

theorem exec_store_outOfBounds {ops : List Operand} {s : State} (h : s.cfg.memSize < effectiveAddress s ops 1 + 8) :
    exec (.store ops) s = .next (s.dispatched.raise (.outOfBoundsMemory s.pc (effectiveAddress s ops 1))) := by
  simp [exec, execStore, Nat.not_le.mpr h, State.apply]

theorem exec_add (ops : List Operand) (s : State) :
    exec (.add ops) s = .next
      (((s.dispatched.writeReg (regSlot ops 0) (s.readReg (regSlot ops 1) + valSlot s ops 2)).writeFlags
        (addFlags (s.readReg (regSlot ops 1)) (valSlot s ops 2)).2).apply .advance) := by
  simp [exec, execAdd, addInto]

theorem exec_dec (ops : List Operand) (s : State) :
    exec (.dec ops) s = .next
      (((s.dispatched.writeReg (regSlot ops 0) (s.readReg (regSlot ops 0) + BitVec.allOnes 64)).writeFlags
        (addFlags (s.readReg (regSlot ops 0)) (BitVec.allOnes 64)).2).apply .advance) := by
  simp [exec, execDec, addInto]

theorem exec_bne_taken {ops : List Operand} {s : State} (h : s.flags.z = false) :
    exec (.bne ops) s = .next (s.dispatched.apply (.jump (lookup (resolve s.program) (nameSlot ops 0)))) := by
  simp [exec, execBne, h]

theorem exec_bne_fallsThrough {ops : List Operand} {s : State} (h : s.flags.z = true) :
    exec (.bne ops) s = .next (s.dispatched.apply .advance) := by
  simp [exec, execBne, h]

theorem exec_halt (ops : List Operand) (s : State) : exec (.halt ops) s = .next (s.dispatched.apply .halt) := rfl

theorem exec_labelDef (name : Text) (s : State) : exec (.labelDef name) s = .next (s.apply .advance) := rfl

theorem exec_unrecognized (ops : List Operand) (s : State) :
    exec (.unrecognized ops) s = .next (s.dispatched.apply .advance) := rfl

/-! ## Everything `exec` can do -/

/-- Every next state of `exec`, by form. -/
theorem exec_cases {i : Instr} {s t : State} (h : exec i s = .next t) :
    (∃ ops, i = .movi ops ∧ t = (s.dispatched.writeReg (regSlot ops 0) (immSlot ops 1)).apply .advance) ∨
    (∃ ops, i = .load ops ∧ effectiveAddress s ops 1 + 8 ≤ s.cfg.memSize ∧
      t = (s.dispatched.writeReg (regSlot ops 0) (s.mem.readWord (effectiveAddress s ops 1))).apply .advance) ∨
    (∃ ops, i = .store ops ∧ effectiveAddress s ops 1 + 8 ≤ s.cfg.memSize ∧
      t = (s.dispatched.storeWord (effectiveAddress s ops 1) (s.readReg (regSlot ops 0))).apply .advance) ∨
    (∃ ops, (i = .load ops ∨ i = .store ops) ∧ s.cfg.memSize < effectiveAddress s ops 1 + 8 ∧
      t = s.dispatched.raise (.outOfBoundsMemory s.pc (effectiveAddress s ops 1))) ∨
    (∃ ops rd a b, (i = .add ops ∧ a = s.readReg (regSlot ops 1) ∧ b = valSlot s ops 2 ∨
        i = .dec ops ∧ a = s.readReg (regSlot ops 0) ∧ b = BitVec.allOnes 64) ∧ rd = regSlot ops 0 ∧
      t = ((s.dispatched.writeReg rd (a + b)).writeFlags (addFlags a b).2).apply .advance) ∨
    (∃ ops, i = .bne ops ∧ s.flags.z = false ∧
      t = s.dispatched.apply (.jump (lookup (resolve s.program) (nameSlot ops 0)))) ∨
    (∃ ops, (i = .bne ops ∧ s.flags.z = true ∨ i = .unrecognized ops) ∧ t = s.dispatched.apply .advance) ∨
    (∃ ops, i = .halt ops ∧ t = s.dispatched.apply .halt) ∨
    (∃ name, i = .labelDef name ∧ t = s.apply .advance) := by
  have inj : ∀ {u : State}, exec i s = .next u → t = u := fun hu => by
    rw [hu] at h
    exact (Host.Outcome.next.inj h).symm
  cases i with
  | movi ops => exact .inl ⟨ops, rfl, inj (exec_movi ops s)⟩
  | load ops =>
    rcases Nat.lt_or_ge s.cfg.memSize (effectiveAddress s ops 1 + 8) with hb | hb
    · exact .inr (.inr (.inr (.inl ⟨ops, .inl rfl, hb, inj (exec_load_outOfBounds hb)⟩)))
    · exact .inr (.inl ⟨ops, rfl, hb, inj (exec_load_inBounds hb)⟩)
  | store ops =>
    rcases Nat.lt_or_ge s.cfg.memSize (effectiveAddress s ops 1 + 8) with hb | hb
    · exact .inr (.inr (.inr (.inl ⟨ops, .inr rfl, hb, inj (exec_store_outOfBounds hb)⟩)))
    · exact .inr (.inr (.inl ⟨ops, rfl, hb, inj (exec_store_inBounds hb)⟩))
  | add ops => exact .inr (.inr (.inr (.inr (.inl ⟨ops, _, _, _, .inl ⟨rfl, rfl, rfl⟩, rfl, inj (exec_add ops s)⟩))))
  | dec ops => exact .inr (.inr (.inr (.inr (.inl ⟨ops, _, _, _, .inr ⟨rfl, rfl, rfl⟩, rfl, inj (exec_dec ops s)⟩))))
  | bne ops =>
    cases hz : s.flags.z with
    | false => exact .inr (.inr (.inr (.inr (.inr (.inl ⟨ops, rfl, rfl, inj (exec_bne_taken hz)⟩)))))
    | true =>
      exact .inr (.inr (.inr (.inr (.inr (.inr (.inl ⟨ops, .inl ⟨rfl, rfl⟩, inj (exec_bne_fallsThrough hz)⟩))))))
  | halt ops => exact .inr (.inr (.inr (.inr (.inr (.inr (.inr (.inl ⟨ops, rfl, inj (exec_halt ops s)⟩)))))))
  | labelDef name =>
    exact .inr (.inr (.inr (.inr (.inr (.inr (.inr (.inr ⟨name, rfl, inj (exec_labelDef name s)⟩)))))))
  | unrecognized ops =>
    exact .inr (.inr (.inr (.inr (.inr (.inr (.inl ⟨ops, .inr rfl, inj (exec_unrecognized ops s)⟩))))))

/-! ## Everything `step` can do -/

/-- A step is taken only in status Running (R105): no fault, not halted, a line at `pc`. -/
theorem State.status_running (s : State) :
    s.status = .running ↔ s.fault = none ∧ s.halted = false ∧ s.pc < s.program.length := by
  unfold State.status
  cases hf : s.fault <;> cases hh : s.halted <;> simp

theorem State.status_aborted (s : State) : s.status = .aborted ↔ s.fault.isSome = true := by
  unfold State.status
  cases hf : s.fault <;> cases hh : s.halted <;> simp
  split <;> simp

/-- Every next state of `step`: nothing happens in an ended run; a Running one fails to decode or executes its line. -/
theorem step_cases {s t : State} (h : step s = .next t) :
    ((s.status = .halted ∨ s.status = .terminated) ∧ t = s) ∨
    (s.status = .running ∧ ∃ slot token, decode s.cfg s.line = .error slot token ∧
      t = s.raise (.decodeError s.pc slot token)) ∨
    (s.status = .running ∧ ∃ i, decode s.cfg s.line = .instr i ∧ exec i s = .next t) := by
  unfold step at h
  cases hs : s.status with
  | halted =>
    rw [hs] at h
    exact .inl ⟨.inl rfl, (Host.Outcome.next.inj h).symm⟩
  | terminated =>
    rw [hs] at h
    exact .inl ⟨.inr rfl, (Host.Outcome.next.inj h).symm⟩
  | aborted =>
    rw [hs] at h
    cases hf : s.fault with
    | none =>
      have hsome := s.status_aborted.mp hs
      simp [hf] at hsome
    | some f => simp [abortedStep, hf] at h
  | running =>
    rw [hs] at h
    cases hd : decode s.cfg s.line with
    | error slot token =>
      simp only [hd, decodeFailed, finish_eq_next] at h
      exact .inr (.inl ⟨rfl, slot, token, rfl, h⟩)
    | instr i =>
      simp only [hd] at h
      exact .inr (.inr ⟨rfl, i, rfl, h⟩)

end Sys2Proof.Machine
end

