-- ==== Sys2Proof/Laws/Text.lean ====
section
/-! SUPPORT. Tokens and decimal numerals: what each function of Machine/Text.lean does, said once. -/

namespace Sys2Proof

/-! ## Tokens (R52) -/

theorem tokens_sep {sep : Byte → Bool} {b : Byte} (t : Text) (h : sep b = true) :
    tokens sep (b :: t) = tokens sep t := by simp [tokens, h]

/-- A separator-free run before a separator is one token. -/
theorem tokens_run {sep : Byte → Bool} {w : Text} (c : Byte) (t : Text) (hw : w ≠ [])
    (hfree : ∀ b ∈ w, sep b = false) (hc : sep c = true) : tokens sep (w ++ c :: t) = w :: tokens sep t := by
  induction w with
  | nil => exact absurd rfl hw
  | cons b w ih =>
    have hb : sep b = false := hfree b List.mem_cons_self
    cases w with
    | nil => simp [tokens, hb, startsToken, hc]
    | cons b' w' =>
      have hb' : sep b' = false := hfree b' (by simp)
      have hrec := ih (by simp) fun x hx => hfree x (List.mem_cons_of_mem _ hx)
      simp only [List.cons_append] at hrec ⊢
      rw [tokens, if_neg (by simp [hb]), if_pos (by simp [startsToken, hb']), hrec]
      rfl

/-- A separator-free run at the end is one token. -/
theorem tokens_run_end {sep : Byte → Bool} {w : Text} (hw : w ≠ []) (hfree : ∀ b ∈ w, sep b = false) :
    tokens sep w = [w] := by
  induction w with
  | nil => exact absurd rfl hw
  | cons b w ih =>
    have hb : sep b = false := hfree b List.mem_cons_self
    cases w with
    | nil => simp [tokens, hb, startsToken]
    | cons b' w' =>
      have hb' : sep b' = false := hfree b' (by simp)
      have hrec := ih (by simp) fun x hx => hfree x (List.mem_cons_of_mem _ hx)
      rw [tokens, if_neg (by simp [hb]), if_pos (by simp [startsToken, hb']), hrec]
      rfl

/-- Every token is non-empty and holds no separator (R52). -/
theorem tokens_mem {sep : Byte → Bool} {s t : Text} (h : t ∈ tokens sep s) :
    t ≠ [] ∧ ∀ b ∈ t, sep b = false := by
  induction s generalizing t with
  | nil => simp [tokens] at h
  | cons b s ih =>
    by_cases hb : sep b = true
    · rw [tokens_sep s hb] at h
      exact ih h
    · have hb' : sep b = false := by simpa using hb
      rw [tokens, if_neg hb] at h
      by_cases hs : startsToken sep s = true
      · rw [if_pos hs] at h
        cases htk : tokens sep s with
        | nil =>
          rw [htk] at h
          simp only [consToken, List.mem_singleton] at h
          subst h
          simp [hb']
        | cons w ws =>
          rw [htk] at h ih
          simp only [consToken, List.mem_cons] at h
          rcases h with rfl | h
          · have hw := ih (t := w) List.mem_cons_self
            refine ⟨by simp, fun x hx => ?_⟩
            rcases List.mem_cons.mp hx with rfl | hx
            exacts [hb', hw.2 x hx]
          · exact ih (List.mem_cons_of_mem _ h)
      · rw [if_neg hs] at h
        rcases List.mem_cons.mp h with rfl | h
        · simp [hb']
        · exact ih h

/-- A text whose first byte is no separator has a token. -/
theorem tokens_ne_nil {sep : Byte → Bool} {b : Byte} (t : Text) (h : sep b = false) : tokens sep (b :: t) ≠ [] := by
  rw [tokens, if_neg (by simp [h])]
  split
  · cases tokens sep t <;> simp [consToken]
  · simp

/-! ## The rest of the line after the opcode (R55, R58) -/

theorem isOperandSep_of_isWs {b : Byte} (h : isWs b = true) : isOperandSep b = true := by simp [isOperandSep, h]

theorem isWs_of_not_isOperandSep {b : Byte} (h : isOperandSep b = false) : isWs b = false := by
  simp only [isOperandSep, Bool.or_eq_false_iff] at h
  exact h.1

theorem dropWhile_run {p : Byte → Bool} {w : Text} (r : Text) (h : ∀ b ∈ w, p b = true) :
    (w ++ r).dropWhile p = r.dropWhile p := by
  induction w with
  | nil => rfl
  | cons b w ih =>
    simp only [List.cons_append, List.dropWhile_cons, h b List.mem_cons_self, if_true]
    exact ih fun x hx => h x (List.mem_cons_of_mem _ hx)

/-- After an opcode token that ends the line nothing is left. -/
theorem afterOpcode_run_end {w : Text} (hfree : ∀ b ∈ w, isWs b = false) : afterOpcode w = [] := by
  have h1 : w.dropWhile isWs = w := by
    cases w with
    | nil => rfl
    | cons b w => simp [hfree b List.mem_cons_self]
  have h2 := dropWhile_run (p := fun b => !isWs b) (w := w) [] (by simpa using hfree)
  rw [afterOpcode, h1]
  simpa using h2

/-- After an opcode token and a whitespace byte the line goes on with that byte. -/
theorem afterOpcode_run {w : Text} (c : Byte) (t : Text) (hw : w ≠ []) (hfree : ∀ b ∈ w, isWs b = false)
    (hc : isWs c = true) : afterOpcode (w ++ c :: t) = c :: t := by
  have h1 : (w ++ c :: t).dropWhile isWs = w ++ c :: t := by
    cases w with
    | nil => exact absurd rfl hw
    | cons b w => simp [hfree b List.mem_cons_self]
  have h2 := dropWhile_run (p := fun b => !isWs b) (w := w) (c :: t) (by simpa using hfree)
  rw [afterOpcode, h1, h2]
  simp [hc]

/-! ## Decimal numerals (R11) -/

theorem decVal_append_singleton (d : Text) (b : Byte) : decVal (d ++ [b]) = 10 * decVal d + (b.toNat - 0x30) := by
  simp [decVal, List.foldl_append]

theorem digitByte_toNat {n : Nat} (h : n < 10) : (digitByte n).toNat = 0x30 + n := by
  simp only [digitByte, BitVec.toNat_ofNat]
  omega

theorem isDigit_digitByte {n : Nat} (h : n < 10) : isDigit (digitByte n) = true := by
  simp only [isDigit, digitByte_toNat h, Bool.and_eq_true, decide_eq_true_eq]
  omega

theorem decTextAux_spec (fuel n : Nat) (h : n ≤ fuel ∨ n < 10) :
    decTextAux fuel n ≠ [] ∧ (∀ b ∈ decTextAux fuel n, isDigit b = true) ∧ decVal (decTextAux fuel n) = n := by
  induction fuel generalizing n with
  | zero =>
    have hn : n < 10 := by omega
    have hd := isDigit_digitByte hn
    simp [decTextAux, Nat.mod_eq_of_lt hn, hd, decVal, digitByte_toNat hn]
  | succ fuel ih =>
    by_cases hn : n < 10
    · simp [decTextAux, hn, isDigit_digitByte hn, decVal, digitByte_toNat hn]
    · obtain ⟨-, h2, h3⟩ := ih (n / 10) (by omega)
      have hd : n % 10 < 10 := Nat.mod_lt _ (by decide)
      simp only [decTextAux, hn, if_false]
      refine ⟨by simp, ?_, ?_⟩
      · intro b hb
        rcases List.mem_append.mp hb with hb | hb
        · exact h2 b hb
        · rw [List.mem_singleton.mp hb]
          exact isDigit_digitByte hd
      · rw [decVal_append_singleton, h3, digitByte_toNat hd]
        omega

theorem decText_ne_nil (n : Nat) : decText n ≠ [] := (decTextAux_spec n n (Or.inl (le_refl n))).1
theorem decText_digits (n : Nat) : ∀ b ∈ decText n, isDigit b = true := (decTextAux_spec n n (Or.inl (le_refl n))).2.1

/-- A numeral spells its number. -/
@[simp] theorem decVal_decText (n : Nat) : decVal (decText n) = n := (decTextAux_spec n n (Or.inl (le_refl n))).2.2

theorem decText_all (n : Nat) : (decText n).all isDigit = true := List.all_eq_true.mpr (decText_digits n)

theorem isOperandSep_of_isDigit {b : Byte} (h : isDigit b = true) : isOperandSep b = false := by
  revert h
  revert b
  decide

end Sys2Proof
end

