-- ==== Sys2Proof/Laws/Decode.lean ====
section
/-! SUPPORT. The Decoder and the encoder, operand by operand: what each shared function answers, said once. -/

namespace Sys2Proof

/-! ## Operands -/

/-- A numeral of a 64-bit value is read as that value (R62). -/
theorem parseU64_decText (v : Word) : parseU64 (decText v.toNat) = some v := by
  simp [parseU64, decText_all, decText_ne_nil, v.isLt]

theorem isRegShape_decText (i : Nat) : isRegShape (0x72#8 :: decText i) = true := by
  simp [isRegShape, decText_all, decText_ne_nil]

/-- A register token with a number below `R` is read as that register (R61). -/
theorem parseReg_decText {cfg : Config} {i : Nat} (h : i < cfg.numRegs) :
    parseReg cfg (0x72#8 :: decText i) = some i := by
  simp [parseReg, isRegShape_decText, h]

theorem takeWhile_run {p : Byte → Bool} {w : Text} {c : Byte} (t : Text) (h : ∀ b ∈ w, p b = true) (hc : p c = false) :
    (w ++ c :: t).takeWhile p = w := by
  induction w with
  | nil => simp [hc]
  | cons b w ih =>
    simp only [List.cons_append, List.takeWhile_cons, h b List.mem_cons_self, if_true]
    rw [ih fun x hx => h x (List.mem_cons_of_mem _ hx)]

theorem ne_plus_of_isDigit {b : Byte} (h : isDigit b = true) : (b != 0x2B#8) = true := by
  revert h
  revert b
  decide

/-- The canonical spelling of a well-formed operand classifies as that operand (R59 to R63). -/
theorem classify_encodeOperand {cfg : Config} {c : Operand} (h : c.wf cfg = true) :
    classify cfg (encodeOperand c) = some c := by
  cases c with
  | reg i =>
    have hi : i < cfg.numRegs := by simpa [Operand.wf] using h
    simp [encodeOperand, classify, isRegShape_decText, parseReg_decText hi]
  | imm v => simp [encodeOperand, classify, parseU64_decText]
  | mem base off =>
    have hb : base < cfg.numRegs := by simpa [Operand.wf] using h
    have hlast : (0x72#8 :: (decText base ++ 0x2B#8 :: (decText off.toNat ++ [0x5D#8]))) =
        (0x72#8 :: (decText base ++ 0x2B#8 :: decText off.toNat)) ++ [0x5D#8] := by simp
    have hdig : ∀ b ∈ 0x72#8 :: decText base, (b != 0x2B#8) = true := by
      intro b hb
      rcases List.mem_cons.mp hb with rfl | hb
      · decide
      · exact ne_plus_of_isDigit (decText_digits base b hb)
    have htake := takeWhile_run (decText off.toNat) hdig (c := 0x2B#8) (by decide)
    have hdrop := dropWhile_run (p := (· != 0x2B#8)) (w := 0x72#8 :: decText base) (0x2B#8 :: decText off.toNat) hdig
    simp only [List.cons_append] at htake hdrop
    have hdrop' : (0x2B#8 :: decText off.toNat).dropWhile (· != 0x2B#8) = 0x2B#8 :: decText off.toNat := by simp
    simp only [encodeOperand, classify]
    rw [if_neg (by decide), if_pos trivial, classifyMemory, hlast, List.getLast?_concat, if_pos rfl,
      List.dropLast_concat, htake, hdrop, hdrop', parseReg_decText hb, parseOffset, parseU64_decText]
  | name s =>
    simp only [Operand.wf, nameWf, Bool.and_eq_true, bne_iff_ne, ne_eq, Bool.not_eq_true', List.isEmpty_eq_false_iff] at h
    obtain ⟨⟨⟨⟨hne, -⟩, h1⟩, h2⟩, h3⟩ := h
    cases s with
    | nil => exact absurd rfl hne
    | cons b d =>
      simp only [List.head?_cons, Option.some.injEq] at h1 h2
      simp [encodeOperand, classify, h1, h2, h3]

/-- The canonical spelling of a well-formed operand is one token: non-empty and free of separators. -/
theorem encodeOperand_token {cfg : Config} {c : Operand} (h : c.wf cfg = true) :
    encodeOperand c ≠ [] ∧ ∀ b ∈ encodeOperand c, isOperandSep b = false := by
  have hdig : ∀ n, ∀ b ∈ decText n, isOperandSep b = false := fun n b hb => isOperandSep_of_isDigit (decText_digits n b hb)
  cases c with
  | reg i =>
    refine ⟨by simp [encodeOperand], fun b hb => ?_⟩
    rcases List.mem_cons.mp hb with rfl | hb
    exacts [by decide, hdig _ b hb]
  | imm v =>
    refine ⟨by simp [encodeOperand], fun b hb => ?_⟩
    rcases List.mem_cons.mp hb with rfl | hb
    exacts [by decide, hdig _ b hb]
  | mem base off =>
    refine ⟨by simp [encodeOperand], fun b hb => ?_⟩
    simp only [encodeOperand, List.mem_cons, List.mem_append, List.not_mem_nil, or_false] at hb
    rcases hb with rfl | rfl | hb | rfl | hb | rfl
    exacts [by decide, by decide, hdig _ b hb, by decide, hdig _ b hb, by decide]
  | name s =>
    simp only [Operand.wf, nameWf, Bool.and_eq_true, Bool.not_eq_true', List.isEmpty_eq_false_iff, List.all_eq_true] at h
    exact ⟨h.1.1.1.1, fun b hb => h.1.1.1.2 b hb⟩

/-- An operand list is accepted exactly when every token classifies, and is then the list of the classifications, in
order (R64, R65). -/
theorem classifyFrom_eq_ok {cfg : Config} {j : Nat} {ts : List Text} {ops : List Operand} :
    classifyFrom cfg j ts = .ok ops ↔ ts.map (classify cfg) = ops.map some := by
  induction ts generalizing j ops with
  | nil => cases ops <;> simp [classifyFrom]
  | cons t ts ih =>
    cases hc : classify cfg t with
    | none => cases ops <;> simp [classifyFrom, hc]
    | some c =>
      cases ops with
      | nil => cases hr : classifyFrom cfg (j + 1) ts <;> simp [classifyFrom, hc, hr]
      | cons d ds =>
        rw [List.map_cons, List.map_cons, List.cons.injEq, ← ih (j := j + 1)]
        cases hr : classifyFrom cfg (j + 1) ts <;> simp [classifyFrom, hc, hr]

/-- The canonical spellings of well-formed operands classify as the operands themselves. -/
theorem classifyFrom_map {cfg : Config} (j : Nat) {ops : List Operand} (h : ∀ c ∈ ops, c.wf cfg = true) :
    classifyFrom cfg j (ops.map encodeOperand) = .ok ops := by
  rw [classifyFrom_eq_ok, List.map_map]
  exact List.map_congr_left fun c hc => classify_encodeOperand (h c hc)

/-- The encoded operands are cut back into the encodings of the operands. -/
theorem tokens_encodeOperands {cfg : Config} {ops : List Operand} (h : ∀ c ∈ ops, c.wf cfg = true) :
    tokens isOperandSep (encodeOperands ops) = ops.map encodeOperand := by
  have htail : ∀ (cs : List Operand) (c : Operand), c.wf cfg = true → (∀ c ∈ cs, c.wf cfg = true) →
      tokens isOperandSep (encodeOperand c ++ cs.flatMap fun c => 0x2C#8 :: 0x20#8 :: encodeOperand c) =
        encodeOperand c :: cs.map encodeOperand := by
    intro cs
    induction cs with
    | nil =>
      intro c hc _
      simpa using tokens_run_end (encodeOperand_token hc).1 (encodeOperand_token hc).2
    | cons c' cs ih =>
      intro c hc hcs
      have hrec := ih c' (hcs c' List.mem_cons_self) fun x hx => hcs x (List.mem_cons_of_mem _ hx)
      simp only [List.flatMap_cons, List.cons_append, List.map_cons]
      rw [tokens_run _ _ (encodeOperand_token hc).1 (encodeOperand_token hc).2 (by decide),
        tokens_sep _ (by decide), hrec]
  cases ops with
  | nil => rfl
  | cons c cs =>
    rw [encodeOperands, tokens_sep _ (by decide),
      htail cs c (h c List.mem_cons_self) fun x hx => h x (List.mem_cons_of_mem _ hx), List.map_cons]

/-! ## The opcode token of an encoded line -/

/-- A mnemonic followed by encoded operands: the opcode token is the mnemonic, and a label it is not. -/
theorem mnemonic_line {cfg : Config} {m : Text} {ops : List Operand} (hm : m ≠ []) (hfree : ∀ b ∈ m, isWs b = false)
    (hcolon : m.getLast? ≠ some 0x3A#8) (h : ∀ c ∈ ops, c.wf cfg = true) :
    (∃ ts, tokens isWs (m ++ encodeOperands ops) = m :: ts) ∧ labelName (m ++ encodeOperands ops) = none ∧
      afterOpcode (m ++ encodeOperands ops) = encodeOperands ops := by
  cases ops with
  | nil =>
    have ht : tokens isWs (m ++ encodeOperands []) = [m] := by
      simpa [encodeOperands] using tokens_run_end hm hfree
    refine ⟨⟨[], ht⟩, ?_, ?_⟩
    · simp only [labelName, ht]
      rw [if_neg hcolon]
    · simpa [encodeOperands] using afterOpcode_run_end hfree
  | cons c cs =>
    have ht : ∀ t, tokens isWs (m ++ 0x20#8 :: t) = m :: tokens isWs t := fun t => tokens_run _ t hm hfree (by decide)
    have hc := encodeOperand_token (h c List.mem_cons_self)
    refine ⟨⟨_, ht _⟩, ?_, afterOpcode_run _ _ hm hfree (by decide)⟩
    simp only [labelName, encodeOperands, ht]
    cases henc : encodeOperand c with
    | nil => exact absurd henc hc.1
    | cons b d =>
      have hb : isWs b = false := isWs_of_not_isOperandSep (hc.2 b (by simp [henc]))
      cases htk : tokens isWs (b :: d ++ cs.flatMap fun c => 0x2C#8 :: 0x20#8 :: encodeOperand c) with
      | nil => exact absurd htk (tokens_ne_nil _ hb)
      | cons w ws => rfl

/-- A label's canonical line is the Label Definition of its name (R53). -/
theorem labelName_encode_label {name : Text} (h : ∀ b ∈ name, isWs b = false) :
    labelName (name ++ [0x3A#8]) = some name := by
  have ht : tokens isWs (name ++ [0x3A#8]) = [name ++ [0x3A#8]] := by
    refine tokens_run_end (by simp) fun b hb => ?_
    rcases List.mem_append.mp hb with hb | hb
    · exact h b hb
    · rw [List.mem_singleton.mp hb]
      decide
  simp [labelName, ht]

end Sys2Proof
end

