-- ==== Sys2Proof/Laws/PerInstr.lean ====
section
/-! SUPPORT. One lemma per constructor of `Instr`, about the instruction as text: the canonical line of an instruction
is a Label Definition exactly for the label row, and then of the same name (R53). -/

namespace Sys2Proof

/-- The name a decoded line defines. -/
def Instr.definedLabel? : Instr → Option Text
  | .movi _ => none
  | .load _ => none
  | .store _ => none
  | .add _ => none
  | .dec _ => none
  | .bne _ => none
  | .halt _ => none
  | .labelDef name => some name
  | .unrecognized _ => none

namespace Laws.EncodedLabel

/-- The label test of R53 on the canonical line of a well-formed instruction gives the label it defines. -/
def Statement (i : Instr) : Prop := ∀ cfg : Config, i.wf cfg = true → labelName (encode i) = i.definedLabel?

theorem operands_wf {cfg : Config} {ops : List Operand} (h : operandsWf cfg ops = true) : ∀ c ∈ ops, c.wf cfg = true := by
  simp only [operandsWf, Bool.and_eq_true, List.all_eq_true] at h
  exact h.2

theorem movi (ops : List Operand) : Statement (.movi ops) := fun _ h =>
  (mnemonic_line (by decide) (by decide) (by decide) (operands_wf h)).2.1
theorem load (ops : List Operand) : Statement (.load ops) := fun _ h =>
  (mnemonic_line (by decide) (by decide) (by decide) (operands_wf h)).2.1
theorem store (ops : List Operand) : Statement (.store ops) := fun cfg h =>
  (mnemonic_line (by decide) (by decide) (by decide)
    (operands_wf (cfg := cfg) (by simp only [Instr.wf, Bool.and_eq_true] at h; exact h.2))).2.1
theorem add (ops : List Operand) : Statement (.add ops) := fun _ h =>
  (mnemonic_line (by decide) (by decide) (by decide) (operands_wf h)).2.1
theorem dec (ops : List Operand) : Statement (.dec ops) := fun _ h =>
  (mnemonic_line (by decide) (by decide) (by decide) (operands_wf h)).2.1
theorem bne (ops : List Operand) : Statement (.bne ops) := fun _ h =>
  (mnemonic_line (by decide) (by decide) (by decide) (operands_wf h)).2.1
theorem halt (ops : List Operand) : Statement (.halt ops) := fun _ h =>
  (mnemonic_line (by decide) (by decide) (by decide) (operands_wf h)).2.1
theorem labelDef (name : Text) : Statement (.labelDef name) := fun _ h =>
  labelName_encode_label (by simpa [Instr.wf] using h)
theorem unrecognized (ops : List Operand) : Statement (.unrecognized ops) := fun _ h =>
  (mnemonic_line (by decide) (by decide) (by decide) (operands_wf h)).2.1

end Laws.EncodedLabel

end Sys2Proof
end

