-- ==== Sys2Proof/Certificates/Slice0/Obligations.lean ====
section
/-! DEFINITION. The statements for the provers. Each docstring names the rule it formalises; a clause that rests on one
of the spec's own decisions D<n>, or on a choice of this model, says so and names the log entry. -/

open Sys2Proof Sys2Proof.Machine

/-! ## The Decoder and the encoder -/

/-- Lines written out byte by byte decode as the rules say. The first seven are lines of the spec's own vectors (P1,
T-D18 and T-D21), the empty line is T-D31, and the two STORE lines are T-D36 and T-D35; the bare token `ADD,` and
`MOVI r1 #a` are this model's own lines, of the kind of T-D12 and T-E1. The empty line rests on the spec's decision D5
and the stuck comma on D3 (log 13), the Malformed token on D9 and D13 (log 14, log 15), STORE on D26 (log 22). -/
def Obligations.DecodeOfWrittenOutLines : Prop :=
  -- MOVI r1 #256
  decode Config.default [0x4D#8, 0x4F#8, 0x56#8, 0x49#8, 0x20#8, 0x72#8, 0x31#8, 0x20#8, 0x23#8, 0x32#8, 0x35#8, 0x36#8] =
    .instr (.movi [.reg 1, .imm 256#64]) ∧
  -- LOAD r4 [r1]
  decode Config.default [0x4C#8, 0x4F#8, 0x41#8, 0x44#8, 0x20#8, 0x72#8, 0x34#8, 0x20#8, 0x5B#8, 0x72#8, 0x31#8, 0x5D#8] =
    .instr (.load [.reg 4, .mem 1 0#64]) ∧
  -- ADD r3 r3 r4
  decode Config.default [0x41#8, 0x44#8, 0x44#8, 0x20#8, 0x72#8, 0x33#8, 0x20#8, 0x72#8, 0x33#8, 0x20#8, 0x72#8, 0x34#8] =
    .instr (.add [.reg 3, .reg 3, .reg 4]) ∧
  -- DEC r2
  decode Config.default [0x44#8, 0x45#8, 0x43#8, 0x20#8, 0x72#8, 0x32#8] = .instr (.dec [.reg 2]) ∧
  -- BNE loop
  decode Config.default [0x42#8, 0x4E#8, 0x45#8, 0x20#8, 0x6C#8, 0x6F#8, 0x6F#8, 0x70#8] =
    .instr (.bne [.name [0x6C#8, 0x6F#8, 0x6F#8, 0x70#8]]) ∧
  -- HALT
  decode Config.default [0x48#8, 0x41#8, 0x4C#8, 0x54#8] = .instr (.halt []) ∧
  -- loop:
  decode Config.default [0x6C#8, 0x6F#8, 0x6F#8, 0x70#8, 0x3A#8] = .instr (.labelDef [0x6C#8, 0x6F#8, 0x6F#8, 0x70#8]) ∧
  -- the empty line, and "ADD," with the comma stuck to the mnemonic
  decode Config.default [] = .instr (.unrecognized []) ∧
  decode Config.default [0x41#8, 0x44#8, 0x44#8, 0x2C#8] = .instr (.unrecognized []) ∧
  -- STORE r2, [r1+16] with and without HAS_STORE
  decode Config.fullTable [0x53#8, 0x54#8, 0x4F#8, 0x52#8, 0x45#8, 0x20#8, 0x72#8, 0x32#8, 0x2C#8, 0x20#8, 0x5B#8, 0x72#8,
    0x31#8, 0x2B#8, 0x31#8, 0x36#8, 0x5D#8] = .instr (.store [.reg 2, .mem 1 16#64]) ∧
  decode Config.default [0x53#8, 0x54#8, 0x4F#8, 0x52#8, 0x45#8, 0x20#8, 0x72#8, 0x32#8, 0x2C#8, 0x20#8, 0x5B#8, 0x72#8,
    0x31#8, 0x2B#8, 0x31#8, 0x36#8, 0x5D#8] = .instr (.unrecognized [.reg 2, .mem 1 16#64]) ∧
  -- MOVI r1 #a
  decode Config.default [0x4D#8, 0x4F#8, 0x56#8, 0x49#8, 0x20#8, 0x72#8, 0x31#8, 0x20#8, 0x23#8, 0x61#8] =
    .error 1 [0x23#8, 0x61#8]

/-- Decoding the canonical line of a well-formed instruction gives the instruction back, for every operand at every
value its kind admits and every value of the parameters. The canonical spelling is the model's choice (log 10). -/
def Obligations.DecodeOfEncodeIsIdentity : Prop :=
  ∀ (cfg : Config) (i : Instr), i.wf cfg = true → decode cfg (encode i) = .instr i

/-- R65: whatever bytes a line holds, what it decodes to is within the bounds of R65 (`Instr.wf`: at most three
operands, register and base indices below R, names non-empty tokens, STORE only when HAS_STORE), and the operand in
slot j is the classification of the j-th operand token, in the order written. -/
def Obligations.DecodeGivesBoundedOperations : Prop :=
  ∀ (cfg : Config) (line : Text) (i : Instr), decode cfg line = .instr i →
    i.wf cfg = true ∧
    ∀ ops, i.operands? = some ops → ∀ j : Nat, ops[j]? = (operandTokens line)[j]?.bind (classify cfg)

/-- A line fails to decode exactly when one of its first three operand tokens is Malformed, whatever the opcode, and
the leftmost one is reported (R64; that it is an error and not a zero is the spec's decision D13, log 15). -/
def Obligations.DecodeErrorIsLeftmostMalformed : Prop :=
  ∀ (cfg : Config) (line : Text) (slot : Nat) (token : Text),
    decode cfg line = .error slot token ↔
      labelName line = none ∧ (operandTokens line)[slot]? = some token ∧ classify cfg token = none ∧
      ∀ k < slot, ∀ u, (operandTokens line)[k]? = some u → (classify cfg u).isSome = true

/-- The opcode of a line is the one whose row of R74 (marked derived there) fits its first whitespace-delimited token by
length, match and mask, and the unrecognized one where no row fits, for every line that is no Label Definition and whose
operand tokens classify; the STORE row counts only with `HAS_STORE` (D26, log 22). A line with no token is an
unrecognized Operation (D5, log 13). The upper-casing of a token is a mnemonic exactly when the row's test says so, and
the match values are the mnemonics' bytes. -/
def Obligations.OpcodeTestIsMatchAndMask : Prop :=
  (∀ (cfg : Config) (line optok : Text) (ops : List Operand), labelName line = none →
    (tokens isWs line).head? = some optok → (operandTokens line).map (classify cfg) = ops.map some →
    (fitsRow optok 4 0x4D4F5649 0xDFDFDFDF → decode cfg line = .instr (.movi ops)) ∧
    (fitsRow optok 4 0x4C4F4144 0xDFDFDFDF → decode cfg line = .instr (.load ops)) ∧
    (fitsRow optok 3 0x414444 0xDFDFDF → decode cfg line = .instr (.add ops)) ∧
    (fitsRow optok 3 0x444543 0xDFDFDF → decode cfg line = .instr (.dec ops)) ∧
    (fitsRow optok 3 0x424E45 0xDFDFDF → decode cfg line = .instr (.bne ops)) ∧
    (fitsRow optok 4 0x48414C54 0xDFDFDFDF → decode cfg line = .instr (.halt ops)) ∧
    (fitsRow optok 5 0x53544F5245 0xDFDFDFDFDF →
      decode cfg line = .instr (if cfg.hasStore then .store ops else .unrecognized ops)) ∧
    (¬ fitsRow optok 4 0x4D4F5649 0xDFDFDFDF → ¬ fitsRow optok 4 0x4C4F4144 0xDFDFDFDF →
      ¬ fitsRow optok 3 0x414444 0xDFDFDF → ¬ fitsRow optok 3 0x444543 0xDFDFDF →
      ¬ fitsRow optok 3 0x424E45 0xDFDFDF → ¬ fitsRow optok 4 0x48414C54 0xDFDFDFDF →
      ¬ fitsRow optok 5 0x53544F5245 0xDFDFDFDFDF → decode cfg line = .instr (.unrecognized ops))) ∧
  (∀ (cfg : Config) (line : Text), tokens isWs line = [] → decode cfg line = .instr (.unrecognized [])) ∧
  (∀ (t u : Text), u ∈ [tokMovi, tokLoad, tokStore, tokAdd, tokDec, tokBne, tokHalt] →
    (upper t = u ↔
      t.length = u.length ∧ textNat t &&& textNat (List.replicate u.length 0xDF#8) = textNat u)) ∧
  textNat tokMovi = 0x4D4F5649 ∧ textNat tokLoad = 0x4C4F4144 ∧ textNat tokStore = 0x53544F5245 ∧
  textNat tokAdd = 0x414444 ∧ textNat tokDec = 0x444543 ∧ textNat tokBne = 0x424E45 ∧ textNat tokHalt = 0x48414C54

/-- Numerals are decimal with any number of leading zeros; an immediate or offset must be below 2^64 and a register
number below R, or the token is Malformed (R61 to R63; the grammar is the spec's decision D7 to D10, log 14). -/
def Obligations.NumeralsReadInBaseTen : Prop :=
  ∀ (cfg : Config) (k l n b : Nat),
    classify cfg (0x23#8 :: (List.replicate k 0x30#8 ++ decText n)) =
      (if n < 2 ^ 64 then some (.imm (BitVec.ofNat 64 n)) else none) ∧
    classify cfg (0x72#8 :: (List.replicate k 0x30#8 ++ decText n)) =
      (if n < cfg.numRegs then some (.reg n) else none) ∧
    classify cfg (0x5B#8 :: 0x72#8 :: (List.replicate k 0x30#8 ++ decText b ++
        0x2B#8 :: (List.replicate l 0x30#8 ++ decText n ++ [0x5D#8]))) =
      (if b < cfg.numRegs ∧ n < 2 ^ 64 then some (.mem b (BitVec.ofNat 64 n)) else none)

/-- Which tokens are of which kind, and with what value; a token of no kind is Malformed (R59 to R63; the grammar is the
spec's decisions D7 to D11, log 14). -/
def Obligations.TokensClassifyByTheirForm : Prop :=
  ∀ (cfg : Config) (t : Text),
    (∀ v, classify cfg t = some (.imm v) ↔
      ∃ d, t = 0x23#8 :: d ∧ d ≠ [] ∧ (∀ b ∈ d, isDigit b = true) ∧ decVal d < 2 ^ 64 ∧
        v = BitVec.ofNat 64 (decVal d)) ∧
    (∀ i, classify cfg t = some (.reg i) ↔
      ∃ d, t = 0x72#8 :: d ∧ d ≠ [] ∧ (∀ b ∈ d, isDigit b = true) ∧ i = decVal d ∧ i < cfg.numRegs) ∧
    (∀ base off, classify cfg t = some (.mem base off) ↔
      ∃ d, d ≠ [] ∧ (∀ b ∈ d, isDigit b = true) ∧ base = decVal d ∧ base < cfg.numRegs ∧
        (t = 0x5B#8 :: 0x72#8 :: (d ++ [0x5D#8]) ∧ off = 0#64 ∨
          ∃ o, o ≠ [] ∧ (∀ b ∈ o, isDigit b = true) ∧ decVal o < 2 ^ 64 ∧ off = BitVec.ofNat 64 (decVal o) ∧
            t = 0x5B#8 :: 0x72#8 :: (d ++ 0x2B#8 :: (o ++ [0x5D#8])))) ∧
    (∀ s, classify cfg t = some (.name s) ↔
      s = t ∧ t ≠ [] ∧ t.head? ≠ some 0x23#8 ∧ t.head? ≠ some 0x5B#8 ∧
        ¬ ∃ d, t = 0x72#8 :: d ∧ d ≠ [] ∧ ∀ b ∈ d, isDigit b = true)

/-- A fourth and later operand token is dropped without being classified (R58; the spec's decision D12, log 14). -/
def Obligations.LaterOperandTokensAreDropped : Prop :=
  ∀ (cfg : Config) (line junk : Text), 3 ≤ (tokens isOperandSep (afterOpcode line)).length →
    decode cfg (line ++ 0x20#8 :: junk) = decode cfg line

/-- Tokens are what is left when the text is cut at every separator and the empty pieces are thrown away (R52, its
second form; the separators are the spec's decision D2, log 13). -/
def Obligations.TokensAreTheNonEmptyPieces : Prop :=
  ∀ (sep : Byte → Bool) (s : Text), tokens sep s = (s.splitOnP sep).filter fun t => !t.isEmpty

/-- A line is a Label Definition exactly when it is a whitespace-free name, a colon, and whitespace around the two, and
exactly those lines decode to one (R49, R53; the exact test is the spec's decision D4, log 14). -/
def Obligations.LabelDefinitionIsNameAndColon : Prop :=
  ∀ (line name : Text),
    (labelName line = some name ↔
      ∃ before after, line = before ++ name ++ 0x3A#8 :: after ∧ (∀ b ∈ before, isWs b = true) ∧
        (∀ b ∈ after, isWs b = true) ∧ ∀ b ∈ name, isWs b = false) ∧
    ∀ cfg, decode cfg line = .instr (.labelDef name) ↔ labelName line = some name

/-- After reset, a word of the opcode table that decodes to an instruction is run as that instruction (the model's
reading of the table and of program loading, log 3, log 4, log 5). -/
def Obligations.TableWordRunsAfterReset : Prop :=
  ∀ (nbits w : Nat) (i : Instr), decodeTableWord nbits w = some i →
    step (State.reset.withFetchWord nbits w) = exec i (State.reset.withFetchWord nbits w)

/-! ## The Label Resolver -/

/-- The map holds for each name the index of the last line that defines it, and no name that no line defines (R102; that
the last definition wins is the spec's decision D21, R104, log 19). -/
def Obligations.ResolverKeepsTheLastDefinition : Prop :=
  ∀ (program : List Text) (s : Text) (i : Nat), labelIndex? (resolve program) s = some i ↔
    (∃ line, program[i]? = some line ∧ labelName line = some s) ∧
    ∀ j line, i < j → program[j]? = some line → labelName line ≠ some s

/-- A lookup gives the map's entry, or line 0 for a name without one, and in a program that has a line always the index
of a line (R103, R110; that an unresolved name gives line 0 is the spec's decision D22, log 19). -/
def Obligations.LookupGivesALineIndex : Prop :=
  ∀ (program : List Text) (s : Text),
    (∀ i, labelIndex? (resolve program) s = some i → lookup (resolve program) s = i) ∧
    (labelIndex? (resolve program) s = none → lookup (resolve program) s = 0) ∧
    (program ≠ [] → lookup (resolve program) s < program.length)

/-- Under UniqueLabels every label is looked up to its own line (R104, R112). -/
def Obligations.UniqueLabelsResolveToTheirLine : Prop :=
  ∀ (program : List Text) (s line : Text) (i : Nat), uniqueLabels program = true → program[i]? = some line →
    labelName line = some s → lookup (resolve program) s = i

/-! ## Data memory -/

/-- R38: `MemRead(EA, 8)` is the sum of the eight bytes, the least significant lowest. -/
def Obligations.MemReadIsLittleEndianSum : Prop :=
  ∀ (m : Memory) (ea : Nat),
    (m.readWord ea).toNat = ∑ k ∈ Finset.range 8, (m.read (ea + k)).toNat * 2 ^ (8 * k)

/-- R39: `MemWrite(EA, 8, v)` sets byte EA + k to bits 8k+7 to 8k of v, for k = 0 to 7, and changes no other byte and no
other field. -/
def Obligations.MemWriteSetsEightBytesOnly : Prop :=
  ∀ (s : State) (ea : Nat) (v : Word), s.mem.wf = true →
    (∀ a, (s.storeWord ea v).mem.read a =
      if ea ≤ a ∧ a < ea + 8 then v.extractLsb' (8 * (a - ea)) 8 else s.mem.read a) ∧
    s.storeWord ea v = { s with mem := (s.storeWord ea v).mem }

/-- Two canonical memories that read the same everywhere are the same data (the model's representation of R25). -/
def Obligations.CanonicalMemoryIsDeterminedByItsBytes : Prop :=
  ∀ (m m' : Memory), m.wf = true → m'.wf = true → (∀ a, m.read a = m'.read a) → m = m'

/-! ## The flag function -/

/-- V is signed overflow; where it is clear the sum is the signed sum; the function is symmetric (R82 and R93, the
forms they mark as derived). -/
def Obligations.OverflowFlagIsSignedOverflow : Prop :=
  ∀ (a b : Word),
    ((addFlags a b).2.v = true ↔ a.toInt + b.toInt < -2 ^ 63 ∨ 2 ^ 63 ≤ a.toInt + b.toInt) ∧
    ((addFlags a b).2.v = false → (addFlags a b).1.toInt = a.toInt + b.toInt) ∧
    addFlags a b = addFlags b a

/-! ## The instructions: result, completion and frame -/

/-- R87: MOVI completes, puts the immediate of slot 1 into the register of slot 0 and changes nothing else but `pc`
(and the log, `LogGrowsByDispatchedLines`). The slot functions hold the defaults of R79 (D16, log 16). -/
def Obligations.MoviWritesItsRegister : Prop :=
  ∀ (s : State) (ops : List Operand), s.Inv → (Instr.movi ops).wf s.cfg = true →
    ∃ t, exec (.movi ops) s = .next t ∧ t.readReg (regSlot ops 0) = immSlot ops 1 ∧ t.pc = s.pc + 1 ∧
      t.flags = s.flags ∧ RegsUnchangedExcept s t [regSlot ops 0] ∧ MemUnchanged s t ∧ RunUnchanged s t

/-- LOAD within bounds completes, puts the eight little-endian bytes at the effective address into the register of
slot 0 and changes nothing else but `pc` and the log (R88, R89; that the address is not wrapped is D19, log 18). -/
def Obligations.LoadReadsEightBytes : Prop :=
  ∀ (s : State) (ops : List Operand), s.Inv → (Instr.load ops).wf s.cfg = true →
    effectiveAddress s ops 1 + 8 ≤ s.cfg.memSize →
    ∃ t, exec (.load ops) s = .next t ∧
      (t.readReg (regSlot ops 0)).toNat =
        ∑ k ∈ Finset.range 8, (s.mem.read (effectiveAddress s ops 1 + k)).toNat * 2 ^ (8 * k) ∧
      t.pc = s.pc + 1 ∧ t.flags = s.flags ∧ RegsUnchangedExcept s t [regSlot ops 0] ∧ MemUnchanged s t ∧
      RunUnchanged s t

/-- STORE within bounds completes, writes the register of slot 0 as eight little-endian bytes at the effective address
and changes no other byte, no register and no flag (R90, the spec's decision D26, log 22). -/
def Obligations.StoreWritesEightBytes : Prop :=
  ∀ (s : State) (ops : List Operand), s.Inv → (Instr.store ops).wf s.cfg = true →
    effectiveAddress s ops 1 + 8 ≤ s.cfg.memSize →
    ∃ t, exec (.store ops) s = .next t ∧
      (∀ a, t.mem.read a =
        if effectiveAddress s ops 1 ≤ a ∧ a < effectiveAddress s ops 1 + 8 then
          (s.readReg (regSlot ops 0)).extractLsb' (8 * (a - effectiveAddress s ops 1)) 8
        else s.mem.read a) ∧
      t.pc = s.pc + 1 ∧ t.flags = s.flags ∧ RegsUnchangedExcept s t [] ∧ RunUnchanged s t

/-- LOAD and STORE out of bounds take the fault OutOfBoundsMemory with the unwrapped address, before any byte is
touched: no register, flag or memory byte, nor `pc` or `halted`, changes (R37, R118; the address is not wrapped by D19
and the record is D24, log 18 and log 21). -/
def Obligations.OutOfBoundsAccessFaults : Prop :=
  ∀ (s : State) (ops : List Operand) (i : Instr), i = .load ops ∨ i = .store ops →
    s.cfg.memSize < (s.readReg (memSlot ops 1).1).toNat + (memSlot ops 1).2.toNat + 8 →
    ∃ t, exec i s = .next t ∧
      t.fault = some (.outOfBoundsMemory s.pc ((s.readReg (memSlot ops 1).1).toNat + (memSlot ops 1).2.toNat)) ∧
      t.pc = s.pc ∧ t.halted = s.halted ∧ t.flags = s.flags ∧ RegsUnchangedExcept s t [] ∧ MemUnchanged s t

/-- A LOAD after a STORE gets each of its eight bytes from the STORE where that covered it, at any overlap, and as it was
before where not (R44 (b), R90; D26, log 22). So a LOAD from the STORE's address gives the stored value, and one from
bytes the STORE did not touch what memory held before. -/
def Obligations.LoadSeesTheLatestStore : Prop :=
  ∀ (s t : State) (ops ops' : List Operand), s.Inv → (Instr.store ops).wf s.cfg = true →
    (Instr.load ops').wf s.cfg = true → effectiveAddress s ops 1 + 8 ≤ s.cfg.memSize →
    effectiveAddress t ops' 1 + 8 ≤ s.cfg.memSize → exec (.store ops) s = .next t →
    ∃ u, exec (.load ops') t = .next u ∧
      (∀ k < 8, (u.readReg (regSlot ops' 0)).extractLsb' (8 * k) 8 =
        if effectiveAddress s ops 1 ≤ effectiveAddress t ops' 1 + k ∧
            effectiveAddress t ops' 1 + k < effectiveAddress s ops 1 + 8 then
          (s.readReg (regSlot ops 0)).extractLsb'
            (8 * (effectiveAddress t ops' 1 + k - effectiveAddress s ops 1)) 8
        else s.mem.read (effectiveAddress t ops' 1 + k)) ∧
      (effectiveAddress t ops' 1 = effectiveAddress s ops 1 →
        u.readReg (regSlot ops' 0) = s.readReg (regSlot ops 0)) ∧
      (effectiveAddress t ops' 1 + 8 ≤ effectiveAddress s ops 1 ∨
          effectiveAddress s ops 1 + 8 ≤ effectiveAddress t ops' 1 →
        u.readReg (regSlot ops' 0) = s.mem.readWord (effectiveAddress t ops' 1))

/-- R91: ADD completes, puts the sum of the two addends, both read before, into the register of slot 0, writes the four
flags, and changes nothing else but `pc` and the log. The slot functions hold the defaults (D16, D17, log 16). -/
def Obligations.AddWritesSumAndFlags : Prop :=
  ∀ (s : State) (ops : List Operand) (a b : Word), s.Inv → (Instr.add ops).wf s.cfg = true →
    a = s.readReg (regSlot ops 1) → b = valSlot s ops 2 →
    ∃ t, exec (.add ops) s = .next t ∧ (t.readReg (regSlot ops 0)).toNat = (a.toNat + b.toNat) % 2 ^ 64 ∧
      (t.flags.z = true ↔ (a.toNat + b.toNat) % 2 ^ 64 = 0) ∧
      (t.flags.n = true ↔ 2 ^ 63 ≤ (a.toNat + b.toNat) % 2 ^ 64) ∧
      (t.flags.c = true ↔ 2 ^ 64 ≤ a.toNat + b.toNat) ∧
      (t.flags.v = true ↔ a.getLsbD 63 = b.getLsbD 63 ∧ (a + b).getLsbD 63 ≠ a.getLsbD 63) ∧
      t.pc = s.pc + 1 ∧ RegsUnchangedExcept s t [regSlot ops 0] ∧ MemUnchanged s t ∧ RunUnchanged s t

/-- DEC completes and decrements the register of slot 0 with wrap-around; Z says the old value was 1, N is bit 63 of the
new one, C says the old value was not 0, V that it was the most negative; nothing else changes but `pc` and the log
(R92; C and V are the spec's decision D18, log 17). -/
def Obligations.DecDecrementsAndSetsFlags : Prop :=
  ∀ (s : State) (ops : List Operand) (a : Word), s.Inv → (Instr.dec ops).wf s.cfg = true →
    a = s.readReg (regSlot ops 0) →
    ∃ t, exec (.dec ops) s = .next t ∧ t.readReg (regSlot ops 0) = a - 1#64 ∧
      (t.flags.z = true ↔ a = 1#64) ∧ (t.flags.n = true ↔ (a - 1#64).getLsbD 63 = true) ∧
      (t.flags.c = true ↔ a ≠ 0#64) ∧ (t.flags.v = true ↔ a = 0x8000000000000000#64) ∧
      t.pc = s.pc + 1 ∧ RegsUnchangedExcept s t [regSlot ops 0] ∧ MemUnchanged s t ∧ RunUnchanged s t

/-- R96: BNE completes; with Z clear `pc` is the looked-up index of its name, with no + 1; with Z set it falls through;
nothing else changes but the log. `lookup` holds what an unresolved name gives (R103, D22, log 19). -/
def Obligations.BneBranchesWhenZIsClear : Prop :=
  ∀ (s : State) (ops : List Operand),
    ∃ t, exec (.bne ops) s = .next t ∧
      (s.flags.z = false → t.pc = lookup (resolve s.program) (nameSlot ops 0)) ∧
      (s.flags.z = true → t.pc = s.pc + 1) ∧
      t.flags = s.flags ∧ RegsUnchangedExcept s t [] ∧ MemUnchanged s t ∧ RunUnchanged s t

/-- HALT completes, sets `halted` and leaves everything else, `pc` too, but the log (R97; that `pc` stays is D23,
log 20). -/
def Obligations.HaltStopsWithPcUnchanged : Prop :=
  ∀ (s : State) (ops : List Operand),
    ∃ t, exec (.halt ops) s = .next t ∧ t.halted = true ∧ t.pc = s.pc ∧ t.fault = s.fault ∧
      t.flags = s.flags ∧ RegsUnchangedExcept s t [] ∧ MemUnchanged s t

/-- An unrecognized opcode completes and only advances `pc` and the log (R98; no counter is kept by D34, log 24). -/
def Obligations.UnrecognizedOpcodeIsANoOp : Prop :=
  ∀ (s : State) (ops : List Operand),
    ∃ t, exec (.unrecognized ops) s = .next t ∧ t.pc = s.pc + 1 ∧ t.flags = s.flags ∧ RegsUnchangedExcept s t [] ∧
      MemUnchanged s t ∧ RunUnchanged s t

/-- A label line completes in one step that does `pc <- pc + 1` and nothing else; nothing is logged (R99; that it costs
one step is the spec's decision D36, log 24, and that it is not logged D25, log 12). -/
def Obligations.LabelLineOnlyAdvancesPc : Prop :=
  (∀ (s : State) (name : Text), exec (.labelDef name) s = .next { s with pc := s.pc + 1 }) ∧
  ∀ (s : State) (name : Text), s.status = .running → labelName s.line = some name →
    step s = .next { s with pc := s.pc + 1 }

/-- Absent and ill-kinded operands take their defaults: register 0, immediate 0, memory reference (0, 0), the empty
name, and the value 0 for ADD's second addend (R79 to R81; the spec's decisions D16 and D17, log 16). -/
def Obligations.AbsentOperandsTakeDefaults : Prop :=
  ∀ (s : State) (r : Nat) (v : Word) (n : Text) (b : Nat) (o : Word), s.Inv → r < s.cfg.numRegs →
    (∃ t, exec (.movi []) s = .next t ∧ t.readReg 0 = 0#64) ∧
    (∃ t, exec (.movi [.imm v]) s = .next t ∧ t.readReg 0 = 0#64) ∧
    (∃ t, exec (.movi [.name n, .imm v]) s = .next t ∧ t.readReg 0 = v) ∧
    (∃ t, exec (.movi [.reg r, .reg r]) s = .next t ∧ t.readReg r = 0#64) ∧
    (∃ t, exec (.add [.reg r, .reg r]) s = .next t ∧ t.readReg r = s.readReg r) ∧
    (∃ t, exec (.add [.reg r, .reg r, .mem b o]) s = .next t ∧ t.readReg r = s.readReg r) ∧
    ((s.readReg 0).toNat + 8 ≤ s.cfg.memSize →
      ∃ t, exec (.load [.reg r, .reg r]) s = .next t ∧ t.readReg r = s.mem.readWord (s.readReg 0).toNat) ∧
    (s.flags.z = false → ∃ t, exec (.bne [.reg r]) s = .next t ∧ t.pc = lookup (resolve s.program) [])

/-- What stands in a slot: an operand of the expected kind gives its value, an absent one or one of another kind the
default (R79 to R81; the defaults are the spec's decisions D16 and D17, log 16). -/
def Obligations.SlotsResolveByKind : Prop :=
  ∀ (s : State) (ops : List Operand) (j : Nat),
    (∀ i, ops[j]? = some (.reg i) → regSlot ops j = i ∧ valSlot s ops j = s.readReg i) ∧
    (∀ v, ops[j]? = some (.imm v) → immSlot ops j = v ∧ valSlot s ops j = v) ∧
    (∀ b o, ops[j]? = some (.mem b o) → memSlot ops j = (b, o)) ∧
    (∀ n, ops[j]? = some (.name n) → nameSlot ops j = n) ∧
    ((∀ i, ops[j]? ≠ some (.reg i)) → regSlot ops j = 0) ∧
    ((∀ v, ops[j]? ≠ some (.imm v)) → immSlot ops j = 0#64) ∧
    ((∀ b o, ops[j]? ≠ some (.mem b o)) → memSlot ops j = (0, 0#64)) ∧
    ((∀ n, ops[j]? ≠ some (.name n)) → nameSlot ops j = []) ∧
    ((∀ i, ops[j]? ≠ some (.reg i)) → (∀ v, ops[j]? ≠ some (.imm v)) → valSlot s ops j = 0#64)

/-- What the well-shaped forms of R67 do with the operands they name, in the operands' own values, whatever stands in
the slots they do not read (R86, R87 to R92, R96; the unwrapped address is D19, DEC's flags D18, STORE D26, the fault
record D24; log 17, log 18, log 21, log 22). -/
def Obligations.WellShapedFormsUseTheirOperands : Prop :=
  ∀ (s : State) (rd a b : Nat) (v off : Word) (name : Text) (rest : List Operand), s.Inv → rd < s.cfg.numRegs →
    (∃ t, exec (.movi (.reg rd :: .imm v :: rest)) s = .next t ∧ t.readReg rd = v) ∧
    ((s.readReg b).toNat + off.toNat + 8 ≤ s.cfg.memSize →
      (∃ t, exec (.load (.reg rd :: .mem b off :: rest)) s = .next t ∧
        t.readReg rd = s.mem.readWord ((s.readReg b).toNat + off.toNat)) ∧
      ∃ t, exec (.store (.reg rd :: .mem b off :: rest)) s = .next t ∧
        t.mem.readWord ((s.readReg b).toNat + off.toNat) = s.readReg rd) ∧
    (s.cfg.memSize < (s.readReg b).toNat + off.toNat + 8 →
      (∃ t, exec (.load (.reg rd :: .mem b off :: rest)) s = .next t ∧
        t.fault = some (.outOfBoundsMemory s.pc ((s.readReg b).toNat + off.toNat))) ∧
      ∃ t, exec (.store (.reg rd :: .mem b off :: rest)) s = .next t ∧
        t.fault = some (.outOfBoundsMemory s.pc ((s.readReg b).toNat + off.toNat))) ∧
    (∃ t, exec (.add (.reg rd :: .reg a :: .reg b :: rest)) s = .next t ∧
      t.readReg rd = s.readReg a + s.readReg b ∧ t.flags = (addFlags (s.readReg a) (s.readReg b)).2) ∧
    (∃ t, exec (.add (.reg rd :: .reg a :: .imm v :: rest)) s = .next t ∧
      t.readReg rd = s.readReg a + v ∧ t.flags = (addFlags (s.readReg a) v).2) ∧
    (∃ t, exec (.dec (.reg rd :: rest)) s = .next t ∧
      t.readReg rd = s.readReg rd - 1#64 ∧ t.flags = (addFlags (s.readReg rd) (BitVec.allOnes 64)).2) ∧
    (s.flags.z = false →
      ∃ t, exec (.bne (.name name :: rest)) s = .next t ∧ t.pc = lookup (resolve s.program) name)

/-! ## The Controller -/

/-- A step in status Running whose line decodes runs the decoded instruction; nothing is added around it, since the
meanings apply their ControlEffect themselves (R106). -/
def Obligations.StepRunsTheDecodedLine : Prop :=
  ∀ (s : State) (line : Text) (i : Instr), s.status = .running → s.program[s.pc]? = some line →
    decode s.cfg line = .instr i → step s = exec i s

/-- A step in status Running whose line does not decode records the DecodeError with `pc`, slot and token and changes
nothing else, the log included (R106, R117; D14, D24, log 15 and log 21). -/
def Obligations.StepRecordsADecodeError : Prop :=
  ∀ (s : State) (line : Text) (slot : Nat) (token : Text), s.status = .running → s.program[s.pc]? = some line →
    decode s.cfg line = .error slot token → step s = .next { s with fault := some (.decodeError s.pc slot token) }

/-- The machine is never stuck and never refuses: a state without a fault has a next state, and an Aborted one stops
with the fault it records (93_implementation_defined.md part 2, R116; the answer of an ended run is the model's, log 6
and log 7). -/
def Obligations.StepAnswersNextUnlessAborted : Prop :=
  ∀ (s : State),
    (s.fault = none → ∃ t, step s = .next t) ∧ (∀ f, s.fault = some f → step s = .fault f)

/-- ADD and DEC write all four flags, together and from their addends alone; every other instruction leaves all four as
they were (R82, R83, R91, R92; DEC's C and V are the spec's decision D18, log 17, and the addends go through the slot
defaults of D16 and D17, log 16). -/
def Obligations.FlagsWrittenByAddAndDecOnly : Prop :=
  ∀ (i : Instr) (s t : State), exec i s = .next t →
    match i with
    | .add ops => t.flags = (addFlags (s.readReg (regSlot ops 1)) (valSlot s ops 2)).2
    | .dec ops => t.flags = (addFlags (s.readReg (regSlot ops 0)) (BitVec.allOnes 64)).2
    | .movi _ => t.flags = s.flags
    | .load _ => t.flags = s.flags
    | .store _ => t.flags = s.flags
    | .bne _ => t.flags = s.flags
    | .halt _ => t.flags = s.flags
    | .labelDef _ => t.flags = s.flags
    | .unrecognized _ => t.flags = s.flags

/-- How each kind of line changes `pc`, the table of R22 (the rows of HALT and of a fault are D23, the unresolved name
is D22; log 19 and log 20). -/
def Obligations.PcFollowsTheLine : Prop :=
  ∀ (s t : State), s.status = .running → step s = .next t →
    match decode s.cfg s.line with
    | .error _ _ => t.pc = s.pc
    | .instr (.halt _) => t.pc = s.pc
    | .instr (.bne ops) =>
      t.pc = if s.flags.z then s.pc + 1 else lookup (resolve s.program) (nameSlot ops 0)
    | .instr (.load ops) => t.pc = if effectiveAddress s ops 1 + 8 ≤ s.cfg.memSize then s.pc + 1 else s.pc
    | .instr (.store ops) => t.pc = if effectiveAddress s ops 1 + 8 ≤ s.cfg.memSize then s.pc + 1 else s.pc
    | .instr (.movi _) => t.pc = s.pc + 1
    | .instr (.add _) => t.pc = s.pc + 1
    | .instr (.dec _) => t.pc = s.pc + 1
    | .instr (.labelDef _) => t.pc = s.pc + 1
    | .instr (.unrecognized _) => t.pc = s.pc + 1

/-- The log gets the raw line of every dispatched Operation, faulting ones too, and nothing for a label line or a line
that does not decode (R84, the spec's decision D25, log 12). -/
def Obligations.LogGrowsByDispatchedLines : Prop :=
  ∀ (s t : State), s.status = .running → step s = .next t →
    match decode s.cfg s.line with
    | .error _ _ => t.log = s.log
    | .instr i => t.log = s.log ++ (if i.operands?.isSome then [s.line] else [])

/-- A run starts with `halted` false; only HALT sets it; nothing clears it during a run (R23); and while it is set a step
that answers a next state answers the same state (R23 says only that no step is taken; the answer of an ended run is the
model's, log 6). -/
def Obligations.HaltedIsSetByHaltOnly : Prop :=
  (∀ (s : State) (program : List Text), (s.runStart program).halted = false) ∧
  ∀ (s t : State), step s = .next t →
    (t.halted = true ↔
      s.halted = true ∨ s.status = .running ∧ ∃ ops, decode s.cfg s.line = .instr (.halt ops)) ∧
    (s.halted = true → t = s)

/-- A fault is precise: the step that raises it changes no register, flag, memory byte, `pc` or `halted`, the state is
Aborted, and the machine then stops with that fault (R116, R126; D14, D24, log 7 and log 21). -/
def Obligations.FaultsArePrecise : Prop :=
  ∀ (s t : State) (f : Fault), s.fault = none → step s = .next t → t.fault = some f →
    t.x = s.x ∧ t.v = s.v ∧ t.flags = s.flags ∧ t.mem = s.mem ∧ t.pc = s.pc ∧ t.halted = s.halted ∧
      t.cfg = s.cfg ∧ t.program = s.program ∧ (t.log = s.log ∨ t.log = s.log ++ [s.line]) ∧
      t.status = .aborted ∧ step t = .fault f

/-- Each fault comes from its own cause and no other instruction raises one: DecodeError from a line that does not
decode, OutOfBoundsMemory from a LOAD or STORE whose unwrapped address plus 8 exceeds M (R115, R119; D19, D24, log 18
and log 21). -/
def Obligations.FaultsComeFromTheirCauses : Prop :=
  ∀ (s t : State) (f : Fault), s.fault = none → step s = .next t → t.fault = some f →
    (∃ slot token, f = .decodeError s.pc slot token ∧ decode s.cfg s.line = .error slot token) ∨
    ∃ ops, f = .outOfBoundsMemory s.pc (effectiveAddress s ops 1) ∧
      s.cfg.memSize < effectiveAddress s ops 1 + 8 ∧
      (decode s.cfg s.line = .instr (.load ops) ∨ decode s.cfg s.line = .instr (.store ops))

/-- Only a STORE line changes memory, so with `HAS_STORE` false memory never changes (R25, R90; D26, log 22). -/
def Obligations.MemoryIsWrittenByStoreOnly : Prop :=
  ∀ (s t : State), step s = .next t →
    (t.mem ≠ s.mem → ∃ ops, decode s.cfg s.line = .instr (.store ops)) ∧
    (s.cfg.hasStore = false → t.mem = s.mem)

/-- No step changes the Program, the parameters, the vector registers or the number of general registers (R18, R27,
R47; D31, log 1). -/
def Obligations.ProgramAndVectorRegistersNeverChange : Prop :=
  ∀ (s t : State), step s = .next t →
    t.program = s.program ∧ t.cfg = s.cfg ∧ t.v = s.v ∧ t.x.length = s.x.length

/-- The state machine of R108: run start; what each event leads to; a terminal state is left by nothing; a taken branch
never ends the run (the status Aborted is D24, log 21; the answer of an ended run is log 6). -/
def Obligations.RunStatusTransitions : Prop :=
  (∀ (s : State) (program : List Text),
    (s.runStart program).status = if program = [] then .terminated else .running) ∧
  (∀ (s t : State), s.status ≠ .running → step s = .next t → t = s) ∧
  ∀ (s t : State), s.status = .running → step s = .next t →
    (t.status = .halted ↔ ∃ ops, decode s.cfg s.line = .instr (.halt ops)) ∧
    (t.status = .aborted ↔ t.fault ≠ none) ∧
    (t.status = .terminated ↔ t.pc = s.program.length) ∧
    (∀ ops, decode s.cfg s.line = .instr (.bne ops) → s.flags.z = false → t.status = .running)

/-- Nothing a program does depends on the flags N, C and V, the vector registers or the log: two states that differ
only there answer alike and their next states differ only there (R18, R20, R26). -/
def Obligations.UnreadStateHasNoInfluence : Prop :=
  ∀ (s s' : State), s.view = s'.view →
    (∀ t, step s = .next t → ∃ t', step s' = .next t' ∧ t.view = t'.view) ∧
    (∀ f, step s = .fault f → step s' = .fault f)

/-! ## Reset, the host and the run -/

/-- Construction zeroes every field, for every value of the parameters (R31, R133; that `fault` is None and the log
empty is D24 and D25, log 21 and log 12). That the reset state has the parameters R = 32, V = 8, M = 4096 and HAS_STORE
false is the model's choice of the spec's defaults (R8, D26, D27, log 2). -/
def Obligations.ConstructionZeroesTheState : Prop :=
  ∀ (cfg : Config),
    (∀ r, (State.construct cfg).readReg r = 0#64) ∧ (State.construct cfg).x.length = cfg.numRegs ∧
    (∀ w ∈ (State.construct cfg).v, w = 0#128) ∧ (State.construct cfg).v.length = cfg.numVRegs ∧
    (State.construct cfg).flags = { z := false, n := false, c := false, v := false } ∧
    (∀ a, (State.construct cfg).mem.read a = 0x00#8) ∧ (State.construct cfg).pc = 0 ∧
    (State.construct cfg).halted = false ∧ (State.construct cfg).fault = none ∧ (State.construct cfg).log = [] ∧
    State.reset = State.construct { numRegs := 32, numVRegs := 8, memSize := 4096, hasStore := false }

/-- The invariant holds of every constructed machine with legal parameters, the reset state among them. -/
def Obligations.ConstructionMeetsTheInvariant : Prop :=
  (∀ cfg : Config, cfg.wf → (State.construct cfg).Inv) ∧ State.reset.Inv

/-- Every step keeps the invariant (R32, R110: `pc` stays within the Program, the vector registers zero, memory within
its capacity and canonical, the Program within R8's bound, a recorded fault precise), from every state that meets it. -/
def Obligations.StepKeepsTheInvariant : Prop :=
  ∀ (s t : State), s.Inv → step s = .next t → t.Inv

/-- Run start and preload keep the invariant, for every Program of fewer than 2^64 lines (R8), address and byte (R135 to
R137; run start clears `fault` by D29, log 23). -/
def Obligations.HostTransactionsKeepTheInvariant : Prop :=
  ∀ (s : State), s.Inv →
    (∀ program, programFits program → (s.runStart program).Inv) ∧ ∀ a b, (s.preload a b).Inv

/-- Preload sets the one byte it names, where it exists, and no other (R137; a byte past the capacity is dropped,
log 27). -/
def Obligations.PreloadSetsOneByte : Prop :=
  ∀ (s : State) (a k : Nat) (b : Byte), s.mem.wf = true →
    (s.preload a b).mem.read k = if k = a ∧ a < s.cfg.memSize then b else s.mem.read k

/-- Run start sets `pc`, `halted` and `fault` and supplies the Program; registers, vector registers, flags, memory and
log enter the run as they are (R107, R135, R136; D29, log 23). -/
def Obligations.RunStartSetsThreeFields : Prop :=
  ∀ (s t : State) (program : List Text), t = s.runStart program →
    t.program = program ∧ t.pc = 0 ∧ t.halted = false ∧ t.fault = none ∧ t.x = s.x ∧ t.v = s.v ∧
      t.flags = s.flags ∧ t.mem = s.mem ∧ t.log = s.log ∧ t.cfg = s.cfg

/-- A run of a Program of fewer than 2^64 lines (R8) keeps the invariant and the Program, however long it goes on, `pc`
fits in 64 bits (R110 (e)), and a run that has ended gives the same final state under any larger fuel (R107 to R109,
R111; fuel is the model's, log 23). -/
def Obligations.RunKeepsInvariantAndFinalState : Prop :=
  ∀ (s : State) (program : List Text) (fuel : Nat), s.Inv → programFits program →
    (run fuel s program).Inv ∧ (run fuel s program).pc < 2 ^ 64 ∧ (run fuel s program).program = program ∧ (run fuel s program).cfg = s.cfg ∧
    ((run fuel s program).status ≠ .running → ∀ more, run (fuel + more) s program = run fuel s program)

/-! ## Predicates a claim may require (R112) -/

/-- AllWellShaped includes AllDecode, and under AllDecode no run aborts with DecodeError. -/
def Obligations.AllDecodeExcludesDecodeError : Prop :=
  (∀ (cfg : Config) (program : List Text), allWellShaped cfg program = true → allDecode cfg program = true) ∧
  ∀ (s t : State), allDecode s.cfg s.program = true → step s = .next t →
    ∀ index slot token, t.fault ≠ some (.decodeError index slot token)

/-- Under LabelsResolved a taken branch lands on a line that defines its name: the label line itself, not the one after
it (R96, R112, R113). -/
def Obligations.ResolvedBranchLandsOnItsLabel : Prop :=
  ∀ (s : State) (ops : List Operand), labelsResolved s.cfg s.program = true → s.status = .running →
    decode s.cfg s.line = .instr (.bne ops) → s.flags.z = false →
    ∃ t, step s = .next t ∧ labelName t.line = some (nameSlot ops 0)
end

