-- ==== Sys2Proof/Tests/Slice0.lean ====
section
/-! SUPPORT. Tests and witnesses. Every expected result is taken from the spec, by the vector named in the theorem's
comment (spec/95_test_vectors.md) or the rule. -/

namespace Sys2Proof.Tests

open Sys2Proof Sys2Proof.Machine

/-- The ASCII bytes of a line. -/
def txt (s : String) : Text := s.toList.map fun c => BitVec.ofNat 8 c.toNat

/-- The reset state with a Program supplied and the run started. -/
def boot (lines : List Text) : State := State.reset.runStart lines

/-- The same on a machine that recognizes STORE. -/
def bootStore (lines : List Text) : State := (State.construct Config.fullTable).runStart lines

/-- The next state, where there is one. -/
def stateOf : Result → Option State
  | .next t => some t
  | .fault _ => none
  | .refused _ => none

theorem next_of_stateOf {r : Result} {t : State} (h : stateOf r = some t) : r = .next t := by
  cases r <;> simp_all [stateOf]

/-- One field of the next state. -/
def after {α : Type} (s : State) (get : State → α) : Option α := (stateOf (step s)).map get

/-! ## WellFormed refuses each kind of ill-formed term (R53, R61, R63, R65) -/

theorem test_wf_reg : (Instr.dec [.reg 32]).wf Config.default = false := by decide
theorem test_wf_base : (Instr.load [.reg 1, .mem 32 0#64]).wf Config.default = false := by decide
theorem test_wf_arity : (Instr.add [.reg 1, .reg 2, .reg 3, .reg 4]).wf Config.default = false := by decide
theorem test_wf_name_empty : (Instr.bne [.name []]).wf Config.default = false := by decide
theorem test_wf_name_comma : (Instr.bne [.name (txt "x,y")]).wf Config.default = false := by decide
theorem test_wf_name_space : (Instr.bne [.name (txt "x y")]).wf Config.default = false := by decide
theorem test_wf_name_hash : (Instr.bne [.name (txt "#x")]).wf Config.default = false := by decide
theorem test_wf_name_bracket : (Instr.bne [.name (txt "[x")]).wf Config.default = false := by decide
theorem test_wf_name_register : (Instr.bne [.name (txt "r1")]).wf Config.default = false := by decide
theorem test_wf_store : (Instr.store [.reg 1, .mem 1 0#64]).wf Config.default = false := by decide
theorem test_wf_label_space : (Instr.labelDef (txt "a b")).wf Config.default = false := by decide
theorem test_wf_movi_accepts : (Instr.movi [.reg 31, .imm 5#64, .name (txt ";")]).wf Config.default = true := by decide

/-! ## The Decoder, one row at least per constructor -/

-- T-D2, T-D3
theorem test_decode_movi : decode Config.default (txt "MOVI r1 #256") = .instr (.movi [.reg 1, .imm 256#64]) := by decide
theorem test_decode_movi_spacing :
    decode Config.default (txt "  MoVi\tr31,#18446744073709551615") =
      .instr (.movi [.reg 31, .imm 0xFFFFFFFFFFFFFFFF#64]) := by decide
-- T-D6, T-D44
theorem test_decode_load : decode Config.default (txt "load r4,[r01+008]") = .instr (.load [.reg 4, .mem 1 8#64]) := by decide
theorem test_decode_load_offset :
    decode Config.default (txt "LOAD r1, [r1+18446744073709551615]") =
      .instr (.load [.reg 1, .mem 1 0xFFFFFFFFFFFFFFFF#64]) := by decide
-- T-D35, T-D36
theorem test_decode_store : decode Config.fullTable (txt "STORE r2, [r1+16]") = .instr (.store [.reg 2, .mem 1 16#64]) := by
  decide
theorem test_decode_store_absent :
    decode Config.default (txt "STORE r2, [r1+16]") = .instr (.unrecognized [.reg 2, .mem 1 16#64]) := by decide
-- T-D9, T-D10
theorem test_decode_add : decode Config.default (txt "ADD r1,,r2 , r3 ,") = .instr (.add [.reg 1, .reg 2, .reg 3]) := by decide
theorem test_decode_add_dropped :
    decode Config.default (txt "ADD r1 r2 r3 r4 #zz") = .instr (.add [.reg 1, .reg 2, .reg 3]) := by decide
-- T-D14
theorem test_decode_dec :
    decode Config.default (txt "DEC r2 ; count") = .instr (.dec [.reg 2, .name (txt ";"), .name (txt "count")]) := by decide
-- T-D15, T-D16
theorem test_decode_bne : decode Config.default (txt "BNE loop") = .instr (.bne [.name (txt "loop")]) := by decide
theorem test_decode_bne_register : decode Config.default (txt "BNE r1") = .instr (.bne [.reg 1]) := by decide
-- T-D19, T-D20
theorem test_decode_halt : decode Config.default (txt "halt") = .instr (.halt []) := by decide
theorem test_decode_halt_operands :
    decode Config.default (txt "HALT r1 r2 r3") = .instr (.halt [.reg 1, .reg 2, .reg 3]) := by decide
-- T-D22, T-D25, T-D26, T-D29
theorem test_decode_label : decode Config.default (txt "  loop:  ") = .instr (.labelDef (txt "loop")) := by decide
theorem test_decode_label_empty : decode Config.default (txt ":") = .instr (.labelDef []) := by decide
theorem test_decode_label_colons : decode Config.default (txt "a:b:") = .instr (.labelDef (txt "a:b")) := by decide
theorem test_decode_label_opcode : decode Config.default (txt "HALT:") = .instr (.labelDef (txt "HALT")) := by decide
-- T-D12, T-D23, T-D24, T-D32, T-D41
theorem test_decode_comma :
    decode Config.default (txt "ADD, r1, r2, r3") = .instr (.unrecognized [.reg 1, .reg 2, .reg 3]) := by decide
theorem test_decode_label_and_more :
    decode Config.default (txt "loop: DEC r2") = .instr (.unrecognized [.name (txt "DEC"), .reg 2]) := by decide
theorem test_decode_label_apart : decode Config.default (txt "loop :") = .instr (.unrecognized [.name (txt ":")]) := by decide
theorem test_decode_blank : decode Config.default (txt "   \t ") = .instr (.unrecognized []) := by decide
theorem test_decode_crlf : decode Config.default (txt "MOVI r1\r\n") = .instr (.movi [.reg 1]) := by decide
-- T-D46, T-D47: bytes above 0x7F are ordinary
theorem test_decode_high_byte :
    decode Config.default (txt "MOV" ++ 0xC9#8 :: txt " r1, #1") = .instr (.unrecognized [.reg 1, .imm 1#64]) := by decide
theorem test_decode_nbsp : decode Config.default (txt "MOVI" ++ 0xA0#8 :: txt "r1") = .instr (.unrecognized []) := by decide
-- T-D37
theorem test_decode_upper_register :
    decode Config.default (txt "MOVI R1, #5") = .instr (.movi [.name (txt "R1"), .imm 5#64]) := by decide

/-- T-E: each of these tokens in slot 1 of `LOAD r1, …` or `MOVI r1, …` is Malformed. -/
theorem test_decode_errors :
    ([txt "#abc", txt "#", txt "#-1", txt "#+1", txt "#0x10", txt "#1_000", txt "##1", txt "#18446744073709551616",
      txt "[r1", txt "[]", txt "[r1+]", txt "[+8]", txt "[r1+8+2]", txt "[r1-8]", txt "[#5]", txt "[8]", txt "[R1]",
      txt "[r32]", txt "[r1+0x10]", txt "[r1+18446744073709551616]", txt "[[r1]]", txt "[", txt "r32"].all fun t =>
        decide (decode Config.default (txt "MOVI r1, " ++ t) = .error 1 t)) = true := by decide
-- T-E26, T-E27, T-E28, T-E30
theorem test_decode_error_space : decode Config.default (txt "LOAD r1, [r1 + 8]") = .error 1 (txt "[r1") := by decide
theorem test_decode_error_leftmost : decode Config.default (txt "LOAD r99, [r1+]") = .error 0 (txt "r99") := by decide
theorem test_decode_error_halt : decode Config.default (txt "HALT #x") = .error 0 (txt "#x") := by decide
theorem test_decode_error_comment : decode Config.default (txt "DEC r2 #comment") = .error 1 (txt "#comment") := by decide
-- T-D45, T-E11: the register count is a parameter
theorem test_decode_r8 :
    decode { Config.default with numRegs := 8 } (txt "MOVI r7, #1") = .instr (.movi [.reg 7, .imm 1#64]) ∧
    decode { Config.default with numRegs := 8 } (txt "MOVI r8, #1") = .error 0 (txt "r8") := by decide

/-- The canonical text (R67, R70). -/
theorem test_encode :
    encode (.load [.reg 4, .mem 1 8#64]) = txt "LOAD r4, [r1+8]" ∧ encode (.add [.reg 3, .reg 3, .imm 10#64]) = txt "ADD r3, r3, #10" ∧
    encode (.halt []) = txt "HALT" ∧ encode (.labelDef (txt "loop")) = txt "loop:" := by decide

/-- The match numbers of the opcode table, read as lines, decode to their rows. -/
theorem test_table_words :
    decodeTableWord 32 0x4D4F5649 = some (.movi []) ∧ decodeTableWord 32 0x4C4F4144 = some (.load []) ∧
    decodeTableWord 40 0x53544F5245 = some (.store []) ∧ decodeTableWord 24 0x414444 = some (.add []) ∧
    decodeTableWord 24 0x444543 = some (.dec []) ∧ decodeTableWord 24 0x424E45 = some (.bne []) ∧
    decodeTableWord 32 0x48414C54 = some (.halt []) ∧ decodeTableWord 8 0x3A = some (.labelDef []) ∧
    decodeTableWord 8 0x00 = some (.unrecognized []) ∧ decodeTableWord 32 0x6D6F7669 = some (.movi []) := by decide

/-! ## One step of each instruction -/

-- T-M3, T-M8
theorem test_movi :
    after (boot [txt "MOVI r31, #18446744073709551615"]) (fun t => (t.readReg 31, t.flags.n, t.pc)) =
      some (0xFFFFFFFFFFFFFFFF#64, false, 1) := by decide
theorem test_movi_default :
    after (boot [txt "MOVI R1, #5"]) (fun t => (t.readReg 0, t.readReg 1)) = some (5#64, 0#64) := by decide
-- T-L3, T-L4: bytes 11 … 88 at 4088; an unaligned address
/-- The cells of some bytes at rising addresses from `a`. -/
def bytesAt (a : Nat) (l : List Byte) : Memory := l.zipIdx.map fun e => (a + e.2, e.1)

theorem test_load_top :
    after { boot [txt "LOAD r2, [r1]"] with
            x := (boot []).x.set 1 4088#64
            mem := bytesAt 4088 [0x11#8, 0x22#8, 0x33#8, 0x44#8, 0x55#8, 0x66#8, 0x77#8, 0x88#8] }
      (fun t => t.readReg 2) = some 0x8877665544332211#64 := by decide
theorem test_load_unaligned :
    after { boot [txt "LOAD r4, [r1+20]"] with
            x := (boot []).x.set 1 512#64
            mem := bytesAt 528 [0xEF#8, 0xCD#8, 0xAB#8, 0x89#8, 0x67#8, 0x45#8, 0x23#8, 0x01#8] }
      (fun t => t.readReg 4) = some 0x01234567#64 := by decide
-- T-L8: the address is not wrapped; the line is logged, pc stays
theorem test_load_fault :
    after { boot [txt "LOAD r2, [r1+9]"] with x := (boot []).x.set 1 0xFFFFFFFFFFFFFFFF#64 }
      (fun t => (t.fault, t.pc, t.log, t.status)) =
      some (some (.outOfBoundsMemory 0 18446744073709551624), 0, [txt "LOAD r2, [r1+9]"], .aborted) := by decide
-- T-S1, T-S2
theorem test_store :
    after { bootStore [txt "STORE r2, [r1+16]"] with x := ((boot []).x.set 1 512#64).set 2 0x0123456789ABCDEF#64 }
      (fun t => t.mem) =
      some [(528, 0xEF#8), (529, 0xCD#8), (530, 0xAB#8), (531, 0x89#8), (532, 0x67#8), (533, 0x45#8), (534, 0x23#8),
        (535, 0x01#8)] := by decide
theorem test_store_fault :
    after { bootStore [txt "STORE r2, [r1]"] with x := (boot []).x.set 1 4089#64 } (fun t => (t.fault, t.mem)) =
      some (some (.outOfBoundsMemory 0 4089), []) := by decide
-- T-B4, T-B6
theorem test_add_overflow :
    after { boot [txt "ADD r2, r1, #1"] with x := (boot []).x.set 1 0x7FFFFFFFFFFFFFFF#64 }
      (fun t => (t.readReg 2, t.readReg 1, t.flags)) =
      some (0x8000000000000000#64, 0x7FFFFFFFFFFFFFFF#64, { z := false, n := true, c := false, v := true }) := by decide
theorem test_add_default :
    after { boot [txt "ADD r3, r2, [r2]"] with x := (boot []).x.set 2 9#64 } (fun t => t.readReg 3) = some 9#64 := by decide
-- T-A3, T-A5, T-A6, T-A8, T-A9, T-A13: sum and Z N C V
theorem test_addFlags :
    addFlags 0xFFFFFFFFFFFFFFFF#64 1#64 = (0#64, { z := true, n := false, c := true, v := false }) ∧
    addFlags 0x8000000000000000#64 0x8000000000000000#64 = (0#64, { z := true, n := false, c := true, v := true }) ∧
    addFlags 0x8000000000000000#64 0xFFFFFFFFFFFFFFFF#64 =
      (0x7FFFFFFFFFFFFFFF#64, { z := false, n := false, c := true, v := true }) ∧
    addFlags 0x7FFFFFFFFFFFFFFF#64 0x7FFFFFFFFFFFFFFF#64 =
      (0xFFFFFFFFFFFFFFFE#64, { z := false, n := true, c := false, v := true }) ∧
    addFlags 0#64 0xFFFFFFFFFFFFFFFF#64 =
      (0xFFFFFFFFFFFFFFFF#64, { z := false, n := true, c := false, v := false }) ∧
    addFlags 0x1234#64 0xFFFFFFFFFFFFEDCC#64 = (0#64, { z := true, n := false, c := true, v := false }) := by decide
-- T-X8, T-X4
theorem test_dec_zero :
    after (boot [txt "DEC"]) (fun t => (t.readReg 0, t.flags)) =
      some (0xFFFFFFFFFFFFFFFF#64, { z := false, n := true, c := false, v := false }) := by decide
theorem test_dec_most_negative :
    after { boot [txt "DEC r1"] with x := (boot []).x.set 1 0x8000000000000000#64 } (fun t => (t.readReg 1, t.flags)) =
      some (0x7FFFFFFFFFFFFFFF#64, { z := false, n := false, c := true, v := true }) := by decide

/-- A Program of nine lines with `loop:` at index 3 and `BNE loop` at index 8 (P1). -/
def loopLines : List Text :=
  [txt "MOVI r1 #256", txt "MOVI r2 #4", txt "MOVI r3 #0", txt "loop:", txt "LOAD r4 [r1]", txt "ADD r3 r3 r4",
    txt "ADD r1 r1 #8", txt "DEC r2", txt "BNE loop"]

-- T-C1, T-C2
theorem test_bne_taken : after { boot loopLines with pc := 8 } (fun t => t.pc) = some 3 := by decide
theorem test_bne_falls :
    after { boot loopLines with pc := 8, flags := { z := true, n := false, c := false, v := false } } (fun t => t.pc) =
      some 9 := by decide
-- T-C6: the last definition wins; T-C4: the empty label
theorem test_labels :
    lookup (resolve [txt "a:", txt "MOVI r1, #1", txt "BNE a", txt "a:"]) (txt "a") = 3 ∧
    lookup (resolve [txt "MOVI r1, #2", txt ":", txt "DEC r1", txt "BNE"]) [] = 1 ∧
    lookup (resolve [txt "NOP", txt "loop:"]) (txt "Loop") = 0 := by decide
-- T-C7, T-C8
theorem test_halt :
    after { boot [txt "NOP", txt "NOP", txt "HALT r1 r2 r3"] with pc := 2 } (fun t => (t.halted, t.pc, t.status, t.log)) =
      some (true, 2, .halted, [txt "HALT r1 r2 r3"]) := by decide
-- T-C11
theorem test_label_line : after { boot loopLines with pc := 3 } (fun t => (t.pc, t.log)) = some (4, []) := by decide
-- T-C10, T-S3
theorem test_unrecognized : after (boot [txt ""]) (fun t => (t.pc, t.log)) = some (1, [[]]) := by decide
theorem test_unrecognized_store : after (boot [txt "STORE r2, [r1+16]"]) (fun t => (t.pc, t.mem)) = some (1, []) := by decide
-- T-F1: code 1, nothing logged; then the machine stops with the fault
theorem test_decode_fault :
    after (boot [txt "HALT #x"]) State.fault = some (some (.decodeError 0 0 (txt "#x"))) ∧
    after (boot [txt "HALT #x"]) (fun t => (t.faultCode, t.pc, t.halted, t.log)) = some (1, 0, false, []) := by decide
-- T-C12: the empty Program ends at once
theorem test_empty_program : (boot []).status = .terminated ∧ stateOf (step State.reset) = some State.reset := by decide
-- P2: the run of four lines ends Halted with these registers and flags
theorem test_run :
    (fun t : State => (t.status, t.pc, t.readReg 2, t.flags)) (run 9 State.reset
      [txt "MOVI r1, #9223372036854775807", txt "ADD r2, r1, #1", txt "HALT", txt "MOVI r1, #0"]) =
      (.halted, 2, 0x8000000000000000#64, { z := false, n := true, c := false, v := true }) := by decide
-- R137: a preloaded byte, and one past the capacity
theorem test_preload :
    ((State.reset.preload 4095 7#8).preload 4096 9#8).mem = [(4095, 7#8)] ∧
    ((State.reset.preload 5 7#8).preload 5 0#8).mem = [] := by decide

/-! ## Witnesses: a concrete state and operands that meet the hypotheses of each statement -/

/-- The invariant of a concrete state without fault that has not halted, by evaluation. -/
theorem inv_of_checks {s : State}
    (h : (decide s.cfg.wf && decide (programFits s.program) && s.x.length == s.cfg.numRegs && s.v == List.replicate s.cfg.numVRegs 0#128 && s.mem.wf &&
      s.mem.all (fun cell => decide (cell.1 < s.cfg.memSize)) && decide (s.pc ≤ s.program.length) && !s.halted &&
      s.fault.isNone) = true) : s.Inv := by
  simp only [Bool.and_eq_true, decide_eq_true_eq, beq_iff_eq, Bool.not_eq_true', Option.isNone_iff_eq_none,
    List.all_eq_true] at h
  obtain ⟨⟨⟨⟨⟨⟨⟨⟨h1, hp⟩, h2⟩, h3⟩, h4⟩, h5⟩, h6⟩, h7⟩, h8⟩ := h
  exact ⟨h1, hp, h2, h3, h4, h5, h6, by simp [h7], by simp [h8], by simp [h8]⟩

/-- A machine with STORE, some registers and some memory, before the line at index 0. -/
def demo (line : Text) : State :=
  { bootStore [line] with x := ((boot []).x.set 1 4080#64).set 2 0x8000000000000000#64, mem := [(4088, 0x11#8)] }

theorem witness_DecodeOfEncodeIsIdentity :
    (Instr.movi [.reg 31, .imm 0xFFFFFFFFFFFFFFFF#64, .name (txt "x:")]).wf Config.fullTable = true ∧
    (Instr.load [.reg 0, .mem 31 0xFFFFFFFFFFFFFFFF#64]).wf Config.fullTable = true ∧
    (Instr.store [.reg 0, .mem 31 0#64]).wf Config.fullTable = true ∧ (Instr.add [.reg 1, .reg 2, .imm 0#64]).wf Config.fullTable = true ∧
    (Instr.dec []).wf Config.fullTable = true ∧ (Instr.bne [.name (txt "r")]).wf Config.fullTable = true ∧
    (Instr.halt []).wf Config.fullTable = true ∧ (Instr.labelDef []).wf Config.fullTable = true ∧
    (Instr.unrecognized [.imm 3#64]).wf Config.fullTable = true := by decide
theorem witness_DecodeGivesBoundedOperations :
    decode Config.default (txt "ADD r1 r31 #5") = .instr (.add [.reg 1, .reg 31, .imm 5#64]) ∧
    (Instr.add [.reg 1, .reg 31, .imm 5#64]).operands? = some [.reg 1, .reg 31, .imm 5#64] := by decide
theorem witness_DecodeErrorIsLeftmostMalformed :
    decode Config.default (txt "ADD r1 r31 #x") = .error 2 (txt "#x") ∧ decode Config.default (txt "ADD r32") = .error 0 (txt "r32") := by
  decide
theorem witness_LaterOperandTokensAreDropped : 3 ≤ (tokens isOperandSep (afterOpcode (txt "ADD r1 r2 r3"))).length := by decide
theorem witness_OpcodeTestIsMatchAndMask :
    labelName (txt "mOVi r1 #5") = none ∧ (tokens isWs (txt "mOVi r1 #5")).head? = some (txt "mOVi") ∧
    (operandTokens (txt "mOVi r1 #5")).map (classify Config.default) = [Operand.reg 1, .imm 5#64].map some ∧
    fitsRow (txt "mOVi") 4 0x4D4F5649 0xDFDFDFDF ∧ fitsRow (txt "lOad") 4 0x4C4F4144 0xDFDFDFDF ∧
    fitsRow (txt "aDd") 3 0x414444 0xDFDFDF ∧ fitsRow (txt "deC") 3 0x444543 0xDFDFDF ∧
    fitsRow (txt "Bne") 3 0x424E45 0xDFDFDF ∧ fitsRow (txt "halT") 4 0x48414C54 0xDFDFDFDF ∧
    fitsRow (txt "storE") 5 0x53544F5245 0xDFDFDFDFDF ∧ ¬ fitsRow (txt "ADD,") 3 0x414444 0xDFDFDF ∧
    tokens isWs (txt " \t") = [] ∧
    tokMovi ∈ [tokMovi, tokLoad, tokStore, tokAdd, tokDec, tokBne, tokHalt] ∧ upper (txt "mOVi") = tokMovi := by decide
theorem witness_NumeralsReadInBaseTen :
    classify Config.default (txt "#18446744073709551615") = some (.imm 0xFFFFFFFFFFFFFFFF#64) ∧
    classify Config.default (txt "#18446744073709551616") = none ∧ classify Config.default (txt "r031") = some (.reg 31) ∧
    classify Config.default (txt "r32") = none ∧ classify Config.default (txt "[r31+00]") = some (.mem 31 0#64) ∧
    classify Config.default (txt "[r32+0]") = none := by decide
theorem witness_TokensClassifyByTheirForm :
    classify Config.default (txt "#0") = some (.imm 0#64) ∧ classify Config.default (txt "r31") = some (.reg 31) ∧
    classify Config.default (txt "[r31]") = some (.mem 31 0#64) ∧
    classify Config.default (txt "[r0+18446744073709551615]") = some (.mem 0 0xFFFFFFFFFFFFFFFF#64) ∧
    classify Config.default (txt "r") = some (.name (txt "r")) := by decide
theorem witness_LabelDefinitionIsNameAndColon :
    labelName (txt "\tx,y: ") = some (txt "x,y") ∧ txt "\tx,y: " = txt "\t" ++ txt "x,y" ++ 0x3A#8 :: txt " " := by decide
theorem witness_TableWordRunsAfterReset :
    decodeTableWord 40 0x53544F5245 = some (.store []) ∧ decodeTableWord 8 0x3A = some (.labelDef []) := by decide
theorem witness_ResolverKeepsTheLastDefinition :
    labelIndex? (resolve [txt "a:", txt "NOP", txt "a:"]) (txt "a") = some 2 ∧ labelIndex? (resolve loopLines) (txt "b") = none := by
  decide
theorem witness_LookupGivesALineIndex :
    [txt "BNE x"] ≠ [] ∧ labelIndex? (resolve [txt "BNE x"]) (txt "x") = none ∧
    labelIndex? (resolve loopLines) (txt "loop") = some 3 := by decide
theorem witness_UniqueLabelsResolveToTheirLine :
    uniqueLabels loopLines = true ∧ loopLines[3]? = some (txt "loop:") ∧ labelName (txt "loop:") = some (txt "loop") := by decide
theorem witness_MemWriteSetsEightBytesOnly :
    (demo []).mem.wf = true ∧ ((demo []).storeWord 4081 0x8877665544332211#64).mem.read 4081 = 0x11#8 ∧
    ((demo []).storeWord 4081 0x8877665544332211#64).mem.read 4088 = 0x88#8 ∧
    ((demo []).storeWord 4080 0x8877665544332211#64).mem.read 4088 = 0x11#8 := by decide
theorem witness_CanonicalMemoryIsDeterminedByItsBytes :
    Memory.wf [(5, 1#8)] = true ∧ Memory.wf (Memory.write [] 5 1#8) = true ∧
    ∀ a, Memory.read [(5, 1#8)] a = Memory.read (Memory.write [] 5 1#8) a := by
  exact ⟨by decide, by decide, fun _ => rfl⟩
theorem witness_OverflowFlagIsSignedOverflow :
    (addFlags 0x7FFFFFFFFFFFFFFF#64 1#64).2.v = true ∧ (addFlags 0x7FFFFFFFFFFFFFFF#64 0x8000000000000000#64).2.v = false := by decide

theorem witness_MoviWritesItsRegister :
    (demo []).Inv ∧ (Instr.movi [.reg 31, .imm 7#64]).wf (demo []).cfg = true := ⟨inv_of_checks (by decide), by decide⟩
theorem witness_LoadReadsEightBytes :
    (demo []).Inv ∧ (Instr.load [.reg 1, .mem 1 8#64]).wf (demo []).cfg = true ∧
    effectiveAddress (demo []) [.reg 1, .mem 1 8#64] 1 + 8 ≤ (demo []).cfg.memSize :=
  ⟨inv_of_checks (by decide), by decide, by decide⟩
theorem witness_StoreWritesEightBytes :
    (demo []).Inv ∧ (Instr.store [.reg 2, .mem 1 8#64]).wf (demo []).cfg = true ∧
    effectiveAddress (demo []) [.reg 2, .mem 1 8#64] 1 + 8 ≤ (demo []).cfg.memSize :=
  ⟨inv_of_checks (by decide), by decide, by decide⟩
theorem witness_OutOfBoundsAccessFaults :
    (demo []).cfg.memSize < ((demo []).readReg (memSlot [.reg 2, .mem 1 9#64] 1).1).toNat + (memSlot [.reg 2, .mem 1 9#64] 1).2.toNat + 8 := by
  decide
theorem witness_LoadSeesTheLatestStore :
    (demo []).Inv ∧ (Instr.store [.reg 2, .mem 1 8#64]).wf (demo []).cfg = true ∧
    (Instr.load [.reg 3, .mem 1 8#64]).wf (demo []).cfg = true ∧ (Instr.load [.reg 3, .mem 1 0#64]).wf (demo []).cfg = true ∧
    (Instr.load [.reg 3, .mem 1 5#64]).wf (demo []).cfg = true ∧
    effectiveAddress (demo []) [.reg 2, .mem 1 8#64] 1 + 8 ≤ (demo []).cfg.memSize ∧
    ∃ t, exec (.store [.reg 2, .mem 1 8#64]) (demo []) = .next t ∧
      effectiveAddress t [.reg 3, .mem 1 8#64] 1 + 8 ≤ (demo []).cfg.memSize ∧
      effectiveAddress t [.reg 3, .mem 1 8#64] 1 = effectiveAddress (demo []) [.reg 2, .mem 1 8#64] 1 ∧
      effectiveAddress t [.reg 3, .mem 1 0#64] 1 + 8 ≤ effectiveAddress (demo []) [.reg 2, .mem 1 8#64] 1 ∧
      effectiveAddress t [.reg 3, .mem 1 5#64] 1 + 3 = effectiveAddress (demo []) [.reg 2, .mem 1 8#64] 1 :=
  ⟨inv_of_checks (by decide), by decide, by decide, by decide, by decide, by decide, _, exec_store_inBounds (by decide),
    by decide, by decide, by decide, by decide⟩
theorem witness_AddWritesSumAndFlags :
    (demo []).Inv ∧ (Instr.add [.reg 2, .reg 2, .reg 2]).wf (demo []).cfg = true := ⟨inv_of_checks (by decide), by decide⟩
theorem witness_DecDecrementsAndSetsFlags : (demo []).Inv ∧ (Instr.dec [.reg 2]).wf (demo []).cfg = true :=
  ⟨inv_of_checks (by decide), by decide⟩
theorem witness_BneBranchesWhenZIsClear :
    (boot loopLines).flags.z = false ∧
    State.flags { boot loopLines with flags := { z := true, n := false, c := false, v := false } } =
      { z := true, n := false, c := false, v := false } := by decide
theorem witness_LabelLineOnlyAdvancesPc :
    State.status { boot loopLines with pc := 3 } = .running ∧
    labelName (State.line { boot loopLines with pc := 3 }) = some (txt "loop") := by decide
theorem witness_AbsentOperandsTakeDefaults :
    (demo []).Inv ∧ 31 < (demo []).cfg.numRegs ∧ ((demo []).readReg 0).toNat + 8 ≤ (demo []).cfg.memSize ∧
    (demo []).flags.z = false := ⟨inv_of_checks (by decide), by decide, by decide, by decide⟩
/-- For `SlotsResolveByKind`: a slot of each kind, and an absent one. -/
theorem witness_SlotsResolveByKind :
    [Operand.reg 1, .imm 2#64, .mem 3 4#64, .name (txt "n")][0]? = some (.reg 1) ∧
    [Operand.reg 1, .imm 2#64, .mem 3 4#64, .name (txt "n")][1]? = some (.imm 2#64) ∧
    [Operand.reg 1, .imm 2#64, .mem 3 4#64, .name (txt "n")][2]? = some (.mem 3 4#64) ∧
    [Operand.reg 1, .imm 2#64, .mem 3 4#64, .name (txt "n")][3]? = some (.name (txt "n")) ∧
    ([] : List Operand)[0]? = none := by decide
/-- For `WellShapedFormsUseTheirOperands`: the last address in bounds and the first one out of bounds. -/
theorem witness_WellShapedFormsUseTheirOperands :
    (demo []).Inv ∧ 31 < (demo []).cfg.numRegs ∧ ((demo []).readReg 1).toNat + (8#64).toNat + 8 ≤ (demo []).cfg.memSize ∧
    (demo []).cfg.memSize < ((demo []).readReg 1).toNat + (9#64).toNat + 8 ∧ (demo []).flags.z = false :=
  ⟨inv_of_checks (by decide), by decide, by decide, by decide, by decide⟩
theorem witness_StepRunsTheDecodedLine :
    (boot loopLines).status = .running ∧ (boot loopLines).program[(boot loopLines).pc]? = some (txt "MOVI r1 #256") ∧
    decode (boot loopLines).cfg (txt "MOVI r1 #256") = .instr (.movi [.reg 1, .imm 256#64]) := by decide
theorem witness_StepRecordsADecodeError :
    (boot [txt "HALT #x"]).status = .running ∧ (boot [txt "HALT #x"]).program[(boot [txt "HALT #x"]).pc]? = some (txt "HALT #x") ∧
    decode (boot [txt "HALT #x"]).cfg (txt "HALT #x") = .error 0 (txt "#x") := by decide
theorem witness_StepAnswersNextUnlessAborted :
    (boot loopLines).fault = none ∧ ((boot []).raise (.outOfBoundsMemory 0 4089)).fault = some (.outOfBoundsMemory 0 4089) := by
  decide

/-- For `FlagsWrittenByAddAndDecOnly`: every instruction answers a next state here. -/
theorem witness_FlagsWrittenByAddAndDecOnly :
    ([Instr.movi [], .load [], .store [], .add [], .dec [], .bne [], .halt [], .labelDef [], .unrecognized []].all fun i =>
      (stateOf (exec i (demo []))).isSome) = true := by decide

/-- For `PcFollowsTheLine`, `LogGrowsByDispatchedLines`, `RunStatusTransitions`, `ProgramAndVectorRegistersNeverChange`,
`HaltedIsSetByHaltOnly` and `FaultsArePrecise`: a Running state and its next state for every kind of line, the faulting
ones among them. -/
theorem witness_running_lines :
    ([txt "MOVI r1 #1", txt "LOAD r1 [r1+8]", txt "LOAD r1 [r1+9]", txt "STORE r2 [r1+8]", txt "STORE r2 [r1+9]", txt "ADD r1 r1 r1",
      txt "DEC r1", txt "BNE x", txt "HALT", txt "x:", txt "NOP", txt "NOP #"].all fun line =>
      decide ((demo line).status = .running) && (stateOf (step (demo line))).isSome) = true := by decide
/-- For `RunStatusTransitions` and `HaltedIsSetByHaltOnly`: an ended run and its next state. -/
theorem witness_ended_run :
    State.status { demo [] with halted := true } = .halted ∧
    stateOf (step { demo [] with halted := true }) = some { demo [] with halted := true } := by decide
/-- For `FaultsArePrecise` and `FaultsComeFromTheirCauses`: one step into each fault. -/
theorem witness_FaultsComeFromTheirCauses :
    (demo []).fault = none ∧
    after (demo (txt "NOP #")) State.fault = some (some (.decodeError 0 0 (txt "#"))) ∧
    after (demo (txt "LOAD r1 [r1+9]")) State.fault = some (some (.outOfBoundsMemory 0 4089)) ∧
    after (demo (txt "STORE r1 [r1+9]")) State.fault = some (some (.outOfBoundsMemory 0 4089)) := by decide
theorem witness_MemoryIsWrittenByStoreOnly :
    (after (demo (txt "STORE r2 [r1]")) State.mem).any (fun m => decide (m ≠ (demo (txt "STORE r2 [r1]")).mem)) = true ∧
    (boot loopLines).cfg.hasStore = false ∧ (stateOf (step (boot loopLines))).isSome = true := by decide
theorem witness_UnreadStateHasNoInfluence :
    (demo (txt "BNE x")).view =
      State.view { demo (txt "BNE x") with flags := { z := false, n := true, c := true, v := true }, log := [[]], v := [] } ∧
    (stateOf (step (demo (txt "BNE x")))).isSome = true := by decide
theorem witness_ConstructionMeetsTheInvariant : Config.wf { numRegs := 1, numVRegs := 0, memSize := 0, hasStore := true } := by decide
theorem witness_StepKeepsTheInvariant :
    (demo (txt "STORE r2 [r1+8]")).Inv ∧ (stateOf (step (demo (txt "STORE r2 [r1+8]")))).isSome = true :=
  ⟨inv_of_checks (by decide), by decide⟩
/-- For `HostTransactionsKeepTheInvariant` and `RunKeepsInvariantAndFinalState`; the run ends within the fuel. -/
theorem witness_HostTransactionsKeepTheInvariant :
    (demo []).Inv ∧ programFits [txt "HALT"] ∧ (run 2 (demo []) [txt "HALT"]).status ≠ .running :=
  ⟨inv_of_checks (by decide), by decide, by decide⟩
theorem witness_PreloadSetsOneByte : (demo []).mem.wf = true ∧ 4095 < (demo []).cfg.memSize := by decide
theorem witness_AllDecodeExcludesDecodeError :
    allWellShaped (boot loopLines).cfg loopLines = true ∧ allDecode (boot loopLines).cfg (boot loopLines).program = true ∧
    (stateOf (step (boot loopLines))).isSome = true := by decide
theorem witness_ResolvedBranchLandsOnItsLabel :
    labelsResolved Config.default (State.program { boot loopLines with pc := 8 }) = true ∧
    State.status { boot loopLines with pc := 8 } = .running ∧
    decode Config.default (State.line { boot loopLines with pc := 8 }) = .instr (.bne [.name (txt "loop")]) ∧
    State.flags { boot loopLines with pc := 8 } = { z := false, n := false, c := false, v := false } := by decide

/-- `noUnknown` tells a program with an unrecognized opcode from one without (R112). -/
theorem test_noUnknown :
    noUnknown Config.default loopLines = true ∧ noUnknown Config.default [txt "NOP"] = false ∧
    allWellShaped Config.default [txt "BNE"] = false ∧ labelsResolved Config.default [txt "BNE x"] = false ∧
    uniqueLabels [txt "a:", txt "a:"] = false := by decide

end Sys2Proof.Tests
end

section
/-! The statements about the state (10_state.md): what construction answers, and what sets `halted`. -/

namespace Sys2Proof.Machine

/-! ## Construction (R31) -/

/-- A constructed general register is zero, within the file by R31 and past it by the totality of the accessor
(log 8). -/
@[simp] theorem State.construct_readReg (cfg : Config) (r : Nat) : (State.construct cfg).readReg r = 0#64 := by
  rw [State.readReg, State.construct_x, List.getD_eq_getElem?_getD]
  exact List.getElem?_getD_replicate_default_eq 0#64 cfg.numRegs r

/-- A byte that no cell holds is the reset byte (R31). -/
@[simp] theorem Memory.read_nil (a : Nat) : Memory.read [] a = 0x00#8 := rfl

/-- Settles O46: the fields one by one, over all parameters; the reset state is `construct` at the default ones. -/
theorem constructionZeroesTheState : Obligations.ConstructionZeroesTheState := fun cfg =>
  ⟨State.construct_readReg cfg, List.length_replicate, fun _ => List.eq_of_mem_replicate, List.length_replicate,
    State.construct_flags cfg, Memory.read_nil, State.construct_pc cfg, State.construct_halted cfg,
    State.construct_fault cfg, State.construct_log cfg, rfl⟩

/-! ## `halted` (R23) -/

/-- HALT is the one instruction that touches `halted`, and it sets it. -/
theorem exec_halted_iff {i : Instr} {s t : State} (h : exec i s = .next t) :
    t.halted = true ↔ s.halted = true ∨ ∃ ops, i = .halt ops := by
  rcases exec_cases h with ⟨ops, rfl, rfl⟩ | ⟨ops, rfl, -, rfl⟩ | ⟨ops, rfl, -, rfl⟩ | ⟨ops, rfl | rfl, -, rfl⟩ |
    ⟨ops, rd, a, b, ⟨rfl, -⟩ | ⟨rfl, -⟩, -, rfl⟩ | ⟨ops, rfl, -, rfl⟩ | ⟨ops, ⟨rfl, -⟩ | rfl, rfl⟩ | ⟨ops, rfl, rfl⟩ |
    ⟨name, rfl, rfl⟩ <;> simp

theorem State.not_halted_of_running {s : State} (h : s.status = .running) : s.halted = false := by
  obtain ⟨-, hhalted, -⟩ := s.status_running.mp h
  exact hhalted

/-- Only a Running state whose line decodes to HALT gets `halted` set by a step, and no step clears it. -/
theorem step_halted_iff {s t : State} (h : step s = .next t) :
    t.halted = true ↔ s.halted = true ∨ s.status = .running ∧ ∃ ops, decode s.cfg s.line = .instr (.halt ops) := by
  rcases step_cases h with ⟨hended, rfl⟩ | ⟨-, slot, token, hdec, rfl⟩ | ⟨hrun, i, hdec, hexec⟩
  · have hrun : t.status ≠ .running := by rcases hended with h | h <;> simp [h]
    simp [hrun]
  · simp [hdec]
  · simp [exec_halted_iff hexec, hrun, hdec]

/-- No step is taken from a halted state (R23); the next state it answers is itself (log 6). -/
theorem step_eq_self_of_halted {s t : State} (h : step s = .next t) (hhalted : s.halted = true) : t = s := by
  have hrun : s.status ≠ .running := fun hrun => by simp [State.not_halted_of_running hrun] at hhalted
  rcases step_cases h with ⟨-, hself⟩ | ⟨hr, -⟩ | ⟨hr, -⟩
  · exact hself
  · exact absurd hr hrun
  · exact absurd hr hrun

/-- Settles O39, from what each next state of `step` does to `halted`. -/
theorem haltedIsSetByHaltOnly : Obligations.HaltedIsSetByHaltOnly :=
  ⟨State.runStart_halted, fun _ _ h => ⟨step_halted_iff h, step_eq_self_of_halted h⟩⟩

end Sys2Proof.Machine
end

section
/-! The statements about data memory (20_memory.md): the number an 8-byte read gives, the bytes an 8-byte write sets,
and a LOAD after a STORE at any overlap. -/

namespace Sys2Proof.Machine

/-! ## The bytes of a number (R36) -/

theorem leNat_lt (bs : List Byte) : leNat bs < 256 ^ bs.length := by
  induction bs with
  | nil => decide
  | cons b bs ih =>
    have hb : b.toNat < 256 := b.isLt
    simp only [leNat, List.length_cons, Nat.pow_succ']
    omega

/-- Byte `k` of a number is its bits 8k+7 to 8k. -/
theorem leBytes_getD {n k : Nat} (w : Nat) (hk : k < n) : (leBytes n w).getD k 0 = BitVec.ofNat 8 (w >>> (8 * k)) := by
  induction n generalizing w k with
  | zero => omega
  | succ n ih =>
    cases k with
    | zero => rfl
    | succ k =>
      have htail : w >>> 8 = w / 256 := Nat.shiftRight_eq_div_pow w 8
      rw [leBytes, List.getD_cons_succ, ih _ (by omega), Nat.mul_succ, Nat.add_comm, Nat.shiftRight_add, htail]

/-- Bits 8k+7 to 8k of the number that bytes spell are byte `k`. -/
theorem leNat_shiftRight {bs : List Byte} {k : Nat} (hk : k < bs.length) :
    BitVec.ofNat 8 (leNat bs >>> (8 * k)) = bs.getD k 0 := by
  induction bs generalizing k with
  | nil => simp at hk
  | cons b bs ih =>
    have hb : b.toNat < 256 := b.isLt
    cases k with
    | zero =>
      apply BitVec.eq_of_toNat_eq
      simpa [leNat] using hb
    | succ k =>
      have htail : leNat (b :: bs) >>> 8 = leNat bs := by
        rw [Nat.shiftRight_eq_div_pow, leNat]
        omega
      rw [Nat.mul_succ, Nat.add_comm, Nat.shiftRight_add, htail, ih (by simpa using hk), List.getD_cons_succ]

/-- Two words with the same eight bytes are equal. -/
theorem word_ext_bytes {v w : Word} (h : ∀ k < 8, v.extractLsb' (8 * k) 8 = w.extractLsb' (8 * k) 8) : v = w := by
  apply BitVec.eq_of_getLsbD_eq
  intro i hi
  have hbit := congrArg (fun b => b.getLsbD (i % 8)) (h (i / 8) (by omega))
  simpa [Nat.mod_lt, Nat.div_add_mod] using hbit

/-! ## `MemRead` (R38) -/

theorem Memory.readBytes_getD {n k : Nat} (m : Memory) (a : Nat) (hk : k < n) :
    (m.readBytes a n).getD k 0 = m.read (a + k) := by
  induction n generalizing a k with
  | zero => omega
  | succ n ih =>
    cases k with
    | zero => rfl
    | succ k =>
      rw [Memory.readBytes, List.getD_cons_succ, ih _ (by omega)]
      rw [Nat.add_right_comm, Nat.add_assoc]

theorem Memory.leNat_readBytes (m : Memory) (a n : Nat) :
    leNat (m.readBytes a n) = ∑ k ∈ Finset.range n, (m.read (a + k)).toNat * 2 ^ (8 * k) := by
  induction n generalizing a with
  | zero => rfl
  | succ n ih =>
    rw [Finset.sum_range_succ', Memory.readBytes, leNat, ih, Finset.mul_sum, Nat.add_comm]
    congr 1
    · refine Finset.sum_congr rfl fun k _ => ?_
      rw [Nat.add_right_comm, Nat.add_assoc, Nat.mul_succ, Nat.pow_add]
      ring
    · simp

theorem Memory.readWord_toNat (m : Memory) (ea : Nat) : (m.readWord ea).toNat = leNat (m.readBytes ea 8) := by
  have hlt := leNat_lt (m.readBytes ea 8)
  rw [Memory.readBytes_length] at hlt
  exact Nat.mod_eq_of_lt hlt

/-- Byte `k` of a word read is the byte of memory at `ea + k`. -/
theorem Memory.readWord_byte {k : Nat} (m : Memory) (ea : Nat) (hk : k < 8) :
    (m.readWord ea).extractLsb' (8 * k) 8 = m.read (ea + k) := by
  rw [BitVec.extractLsb', Memory.readWord_toNat, leNat_shiftRight (by simpa using hk), Memory.readBytes_getD m ea hk]

/-- Settles O15, by induction on the number of bytes read (`Memory.leNat_readBytes`): eight of them fit a word. -/
theorem memReadIsLittleEndianSum : Obligations.MemReadIsLittleEndianSum := fun m ea =>
  (m.readWord_toNat ea).trans (m.leNat_readBytes ea 8)

/-! ## `MemWrite` (R39) -/

/-- A byte read after `MemWrite`: from the word where that covers the address, the old byte everywhere else. -/
theorem Memory.read_writeWord {m : Memory} (ea : Nat) (w : Word) (a : Nat) (h : m.wf = true) :
    (m.writeWord ea w).read a = if ea ≤ a ∧ a < ea + 8 then w.extractLsb' (8 * (a - ea)) 8 else m.read a := by
  rw [Memory.writeWord, Memory.read_writeBytes ea _ a h, leBytes_length]
  split
  · exact leBytes_getD w.toNat (by omega)
  · rfl

/-- Settles O16: the eight bytes by `Memory.read_writeWord`; `storeWord` updates no field but `mem`. -/
theorem memWriteSetsEightBytesOnly : Obligations.MemWriteSetsEightBytesOnly := fun _ ea v hwf =>
  ⟨fun a => Memory.read_writeWord ea v a hwf, rfl⟩

/-! ## LOAD after STORE (R44, R90) -/

/-- A word read at the address of the word written is that word. -/
theorem Memory.readWord_writeWord_self {m : Memory} (ea : Nat) (w : Word) (h : m.wf = true) :
    (m.writeWord ea w).readWord ea = w := by
  refine word_ext_bytes fun k hk => ?_
  rw [Memory.readWord_byte _ _ hk, Memory.read_writeWord _ _ _ h, if_pos (by omega), Nat.add_sub_cancel_left]

/-- A word read from eight bytes that the word written does not cover is as before. -/
theorem Memory.readWord_writeWord_disjoint {m : Memory} {ea ea' : Nat} (w : Word) (h : m.wf = true)
    (hdis : ea' + 8 ≤ ea ∨ ea + 8 ≤ ea') : (m.writeWord ea w).readWord ea' = m.readWord ea' := by
  refine word_ext_bytes fun k hk => ?_
  rw [Memory.readWord_byte _ _ hk, Memory.readWord_byte _ _ hk, Memory.read_writeWord _ _ _ h, if_neg (by omega)]

/-- A LOAD within bounds completes, and its register holds the word read at the effective address. -/
theorem exec_load_readReg {ops : List Operand} {s : State} (hreg : regSlot ops 0 < s.x.length)
    (hb : effectiveAddress s ops 1 + 8 ≤ s.cfg.memSize) :
    ∃ t, exec (.load ops) s = .next t ∧ t.readReg (regSlot ops 0) = s.mem.readWord (effectiveAddress s ops 1) :=
  ⟨_, exec_load_inBounds hb, (State.apply_readReg ..).trans (State.readReg_writeReg_self s.dispatched _ hreg)⟩

/-- The one next state of a STORE within bounds. -/
theorem exec_store_next {ops : List Operand} {s t : State} (h : exec (.store ops) s = .next t)
    (hb : effectiveAddress s ops 1 + 8 ≤ s.cfg.memSize) :
    t = (s.dispatched.storeWord (effectiveAddress s ops 1) (s.readReg (regSlot ops 0))).apply .advance := by
  rw [exec_store_inBounds hb] at h
  exact (Host.Outcome.next.inj h).symm

/-- Settles O23: the LOAD reads the memory that the STORE wrote, and the laws of reading after `MemWrite` say what each
byte and, at equal and at disjoint addresses, the whole word is. -/
theorem loadSeesTheLatestStore : Obligations.LoadSeesTheLatestStore := by
  intro s t ops ops' hinv _ hload hsb hlb hstore
  have ht := exec_store_next hstore hsb
  have hcfg : t.cfg = s.cfg := by simp [ht]
  have hmem : t.mem = s.mem.writeWord (effectiveAddress s ops 1) (s.readReg (regSlot ops 0)) := by simp [ht]
  have hreg : regSlot ops' 0 < t.x.length := by
    have hx : t.x.length = s.cfg.numRegs := by simp [ht, hinv.regs_length]
    rw [hx]
    exact regSlot_lt 0 hinv.cfg_wf hload
  obtain ⟨u, hexec, hval⟩ := exec_load_readReg hreg (by rwa [hcfg])
  rw [hmem] at hval
  refine ⟨u, hexec, fun k hk => ?_, fun heq => ?_, fun hdis => ?_⟩
  · rw [hval, Memory.readWord_byte _ _ hk, Memory.read_writeWord _ _ _ hinv.mem_wf]
  · rw [hval, heq, Memory.readWord_writeWord_self _ _ hinv.mem_wf]
  · rw [hval, Memory.readWord_writeWord_disjoint _ hinv.mem_wf hdis]

end Sys2Proof.Machine
end

section
/-! The statements about lines and tokens (30_encoding.md): where the tokens of a line stand in it, which lines are
Label Definitions, and what a fourth operand token does. -/

namespace Sys2Proof

/-! ## Where the tokens of a text stand in it (R52) -/

theorem tokens_eq_nil_iff {sep : Byte → Bool} {s : Text} : tokens sep s = [] ↔ ∀ b ∈ s, sep b = true := by
  induction s with
  | nil => simp [tokens]
  | cons b s ih =>
    cases hb : sep b with
    | true => simp [tokens_sep s hb, ih, hb]
    | false => simp [tokens_ne_nil s hb, hb]

/-- Separators in front of a text add no token. -/
theorem tokens_sep_run {sep : Byte → Bool} {w : Text} (s : Text) (h : ∀ b ∈ w, sep b = true) :
    tokens sep (w ++ s) = tokens sep s := by
  induction w with
  | nil => rfl
  | cons b w ih =>
    rw [List.cons_append, tokens_sep _ (h b List.mem_cons_self), ih fun x hx => h x (List.mem_cons_of_mem _ hx)]

/-- A separator-free run that the rest of the text does not prolong is one token. -/
theorem tokens_maximal_run {sep : Byte → Bool} {w r : Text} (hw : w ≠ []) (hfree : ∀ b ∈ w, sep b = false)
    (hr : startsToken sep r = false) : tokens sep (w ++ r) = w :: tokens sep r := by
  cases r with
  | nil => simpa [tokens] using tokens_run_end hw hfree
  | cons c r =>
    have hc : sep c = true := by simpa [startsToken] using hr
    rw [tokens_run c r hw hfree hc, tokens_sep r hc]

theorem startsToken_dropWhile_not (sep : Byte → Bool) (s : Text) :
    startsToken sep (s.dropWhile fun b => !sep b) = false := by
  have h := List.head?_dropWhile_not (fun b => !sep b) s
  revert h
  cases s.dropWhile fun b => !sep b <;> simp [startsToken]

/-- The first token of a text: separators before it, and a rest that does not prolong it and holds the other tokens. -/
theorem exists_of_tokens_eq_cons {sep : Byte → Bool} {s w : Text} {ws : List Text} (h : tokens sep s = w :: ws) :
    ∃ before r, s = before ++ (w ++ r) ∧ (∀ b ∈ before, sep b = true) ∧ startsToken sep r = false ∧
      tokens sep r = ws := by
  have hbefore : ∀ b ∈ s.takeWhile sep, sep b = true := fun _ => List.mem_takeWhile_imp
  have hs : s = s.takeWhile sep ++ s.dropWhile sep := List.takeWhile_append_dropWhile.symm
  rw [hs, tokens_sep_run _ hbefore] at h
  have hd : s.dropWhile sep = (s.dropWhile sep).takeWhile (fun b => !sep b) ++
      (s.dropWhile sep).dropWhile fun b => !sep b := List.takeWhile_append_dropWhile.symm
  have hne : (s.dropWhile sep).takeWhile (fun b => !sep b) ≠ [] := by
    have hhead := List.head?_dropWhile_not sep s
    cases hdrop : s.dropWhile sep with
    | nil => simp [hdrop, tokens] at h
    | cons c d =>
      have hc : sep c = false := by simpa [hdrop] using hhead
      simp [hc]
  have hrest := startsToken_dropWhile_not sep (s.dropWhile sep)
  rw [hd, tokens_maximal_run hne (fun b hb => by simpa using List.mem_takeWhile_imp hb) hrest, List.cons.injEq] at h
  obtain ⟨rfl, hws⟩ := h
  exact ⟨_, _, hs.trans (congrArg _ hd), hbefore, hrest, hws⟩

/-- A separator between two texts keeps their tokens apart. -/
theorem tokens_append_sep {sep : Byte → Bool} {c : Byte} (s t : Text) (hc : sep c = true) :
    tokens sep (s ++ c :: t) = tokens sep s ++ tokens sep t := by
  induction hts : tokens sep s generalizing s with
  | nil => rw [tokens_sep_run _ (tokens_eq_nil_iff.mp hts), tokens_sep t hc, List.nil_append]
  | cons w ws ih =>
    obtain ⟨before, r, rfl, hbefore, hr, hws⟩ := exists_of_tokens_eq_cons hts
    obtain ⟨hw, hfree⟩ := tokens_mem (hts ▸ List.mem_cons_self)
    have hr' : startsToken sep (r ++ c :: t) = false := by
      cases r with
      | nil => simp [startsToken, hc]
      | cons x r => exact hr
    rw [List.append_assoc, List.append_assoc, tokens_sep_run _ hbefore, tokens_maximal_run hw hfree hr', ih r hws,
      List.cons_append]

/-! ## The rest of the line after the opcode (R55, R58) -/

/-- What follows the opcode token, where it and the whitespace before it are known. -/
theorem afterOpcode_append {before w r : Text} (hbefore : ∀ b ∈ before, isWs b = true) (hw : w ≠ [])
    (hfree : ∀ b ∈ w, isWs b = false) (hr : startsToken isWs r = false) : afterOpcode (before ++ (w ++ r)) = r := by
  cases r with
  | nil =>
    rw [afterOpcode, dropWhile_run _ hbefore, List.append_nil]
    exact afterOpcode_run_end hfree
  | cons c r =>
    rw [afterOpcode, dropWhile_run _ hbefore]
    exact afterOpcode_run c r hw hfree (by simpa [startsToken] using hr)

/-- The opcode token of a line stands between whitespace and the rest of the line. -/
theorem exists_line_eq {line w : Text} {ws : List Text} (h : tokens isWs line = w :: ws) :
    ∃ before, line = before ++ (w ++ afterOpcode line) ∧ (∀ b ∈ before, isWs b = true) ∧
      startsToken isWs (afterOpcode line) = false ∧ tokens isWs (afterOpcode line) = ws := by
  obtain ⟨before, r, hline, hbefore, hr, hws⟩ := exists_of_tokens_eq_cons h
  obtain ⟨hw, hfree⟩ := tokens_mem (h ▸ List.mem_cons_self)
  have hafter : afterOpcode line = r := by rw [hline, afterOpcode_append hbefore hw hfree hr]
  exact ⟨before, hafter ▸ hline, hbefore, hafter ▸ hr, hafter ▸ hws⟩

theorem afterOpcode_eq_nil {line : Text} (h : tokens isWs line = []) : afterOpcode line = [] := by
  have hdrop : line.dropWhile isWs = [] := by simpa using tokens_eq_nil_iff.mp h
  rw [afterOpcode, hdrop, List.dropWhile_nil]

/-! ## Label Definitions (R53) -/

theorem labelName_eq_some {line name : Text} : labelName line = some name ↔ tokens isWs line = [name ++ [0x3A#8]] := by
  unfold labelName
  split
  · rename_i t ht
    rw [ht]
    constructor
    · intro h
      split at h
      · rename_i hlast
        obtain ⟨d, rfl⟩ := List.getLast?_eq_some_iff.mp hlast
        simp only [List.dropLast_concat, Option.some.injEq] at h
        rw [h]
      · exact absurd h (by simp)
    · intro h
      obtain rfl : t = name ++ [0x3A#8] := by simpa using h
      simp
  · rename_i hnot
    exact ⟨fun h => absurd h (by simp), fun h => absurd h (hnot _)⟩

theorem labelName_eq_none_of_two {line t u : Text} {ts : List Text} (h : tokens isWs line = t :: u :: ts) :
    labelName line = none :=
  Option.eq_none_iff_forall_ne_some.mpr fun name hname => by simp [labelName_eq_some, h] at hname

/-- A whitespace-free name and a colon with whitespace around them, as tokens. -/
theorem tokens_eq_label_iff {line name : Text} : tokens isWs line = [name ++ [0x3A#8]] ↔
    ∃ before after, line = before ++ name ++ 0x3A#8 :: after ∧ (∀ b ∈ before, isWs b = true) ∧
      (∀ b ∈ after, isWs b = true) ∧ ∀ b ∈ name, isWs b = false := by
  constructor
  · intro h
    obtain ⟨before, after, rfl, hbefore, -, hafter⟩ := exists_of_tokens_eq_cons h
    obtain ⟨-, hfree⟩ := tokens_mem (h ▸ List.mem_cons_self)
    exact ⟨before, after, by simp, hbefore, tokens_eq_nil_iff.mp hafter, fun b hb => hfree b (List.mem_append_left _ hb)⟩
  · rintro ⟨before, after, rfl, hbefore, hafter, hname⟩
    have hfree : ∀ b ∈ name ++ [0x3A#8], isWs b = false := by
      intro b hb
      rcases List.mem_append.mp hb with hb | hb
      · exact hname b hb
      · rw [List.mem_singleton.mp hb]
        decide
    have hr : startsToken isWs after = false := by
      cases after with
      | nil => rfl
      | cons c after => simp [startsToken, hafter c List.mem_cons_self]
    have hline : before ++ name ++ 0x3A#8 :: after = before ++ ((name ++ [0x3A#8]) ++ after) := by simp
    rw [hline, tokens_sep_run _ hbefore, tokens_maximal_run (by simp) hfree hr, tokens_eq_nil_iff.mpr hafter]

/-! ## What `decode` answers (R49) -/

/-- The operands of what the opcode test answers are those it was given. -/
@[simp] theorem recognize_operands? (cfg : Config) (u : Text) (ops : List Operand) :
    (recognize cfg u ops).operands? = some ops := by
  unfold recognize
  split_ifs <;> rfl

theorem decode_of_tokens_nil {cfg : Config} {line : Text} (h : tokens isWs line = []) :
    decode cfg line = .instr (.unrecognized []) := by
  simp [decode, labelName, decodeOperation, h]

theorem decode_of_label {cfg : Config} {line name : Text} (h : labelName line = some name) :
    decode cfg line = .instr (.labelDef name) := by
  simp [decode, h]

theorem decode_of_not_label {cfg : Config} {line : Text} (h : labelName line = none) :
    decode cfg line = decodeOperation cfg line := by
  simp [decode, h]

/-- An Operation decodes to what the opcode test answers on its first token and the classified operand tokens. -/
theorem decode_of_operands {cfg : Config} {line w : Text} {ws : List Text} {ops : List Operand}
    (hlabel : labelName line = none) (hw : tokens isWs line = w :: ws)
    (hops : (operandTokens line).map (classify cfg) = ops.map some) :
    decode cfg line = .instr (recognize cfg (upper w) ops) := by
  simp [decode_of_not_label hlabel, decodeOperation, hw, classifyFrom_eq_ok.mpr hops]

/-- Every line that decodes is a Label Definition, blank, or an Operation whose operand tokens classify. -/
theorem decode_instr_cases {cfg : Config} {line : Text} {i : Instr} (h : decode cfg line = .instr i) :
    (∃ name, labelName line = some name ∧ i = .labelDef name) ∨
    (tokens isWs line = [] ∧ i = .unrecognized []) ∨
    ∃ w ws ops, tokens isWs line = w :: ws ∧ (operandTokens line).map (classify cfg) = ops.map some ∧
      i = recognize cfg (upper w) ops := by
  cases hlabel : labelName line with
  | some name => exact .inl ⟨name, rfl, by simpa [decode_of_label hlabel, eq_comm] using h⟩
  | none =>
    rw [decode_of_not_label hlabel, decodeOperation] at h
    cases hw : tokens isWs line with
    | nil => exact .inr (.inl ⟨rfl, by simpa [hw, eq_comm] using h⟩)
    | cons w ws =>
      cases hops : classifyFrom cfg 0 (operandTokens line) with
      | ok ops => exact .inr (.inr ⟨w, ws, ops, rfl, classifyFrom_eq_ok.mp hops, by simpa [hw, hops, eq_comm] using h⟩)
      | error e => simp [hw, hops] at h

/-- Only a Label Definition decodes to a label line: what the opcode test answers has operands. -/
theorem decode_eq_labelDef_iff {cfg : Config} {line name : Text} :
    decode cfg line = .instr (.labelDef name) ↔ labelName line = some name := by
  refine ⟨fun h => ?_, decode_of_label⟩
  rcases decode_instr_cases h with ⟨name', hname, hi⟩ | ⟨-, hi⟩ | ⟨w, ws, ops, -, -, hi⟩
  · cases hi
    exact hname
  · cases hi
  · have hops := congrArg Instr.operands? hi
    rw [recognize_operands?] at hops
    cases hops

/-- Settles O10: the label test asks for one token that ends in a colon, and `tokens_eq_label_iff` says where in the
line that token stands. -/
theorem labelDefinitionIsNameAndColon : Obligations.LabelDefinitionIsNameAndColon := fun _ _ =>
  ⟨labelName_eq_some.trans tokens_eq_label_iff, fun _ => decode_eq_labelDef_iff⟩

/-! ## Later operand tokens (R58) -/

/-- A line with an operand token has an opcode token and another one. -/
theorem exists_two_tokens {line : Text} (h : tokens isOperandSep (afterOpcode line) ≠ []) :
    ∃ w u us, tokens isWs line = w :: u :: us := by
  cases hw : tokens isWs line with
  | nil => exact absurd (by rw [afterOpcode_eq_nil hw]; rfl) h
  | cons w ws =>
    obtain ⟨-, -, -, -, hws⟩ := exists_line_eq hw
    cases ws with
    | nil => exact absurd (tokens_eq_nil_iff.mpr fun b hb => isOperandSep_of_isWs (tokens_eq_nil_iff.mp hws b hb)) h
    | cons u us => exact ⟨w, u, us, rfl⟩

/-- Text attached after whitespace follows the rest of a line that has an opcode token. -/
theorem afterOpcode_append_ws {line w : Text} {ws : List Text} {c : Byte} (t : Text) (hw : tokens isWs line = w :: ws)
    (hc : isWs c = true) : afterOpcode (line ++ c :: t) = afterOpcode line ++ c :: t := by
  obtain ⟨before, hline, hbefore, hr, -⟩ := exists_line_eq hw
  obtain ⟨hne, hfree⟩ := tokens_mem (hw ▸ List.mem_cons_self)
  have hr' : startsToken isWs (afterOpcode line ++ c :: t) = false := by
    cases hafter : afterOpcode line with
    | nil => simp [startsToken, hc]
    | cons x r => simpa [hafter, startsToken] using hr
  have hline' : line ++ c :: t = before ++ (w ++ (afterOpcode line ++ c :: t)) := by
    conv_lhs => rw [hline]
    simp
  rw [hline', afterOpcode_append hbefore hne hfree hr']

/-- Settles O8: with three operand tokens in the line the attached text changes neither the opcode token nor the first
three operand tokens, and neither line has the one token of a Label Definition. -/
theorem laterOperandTokensAreDropped : Obligations.LaterOperandTokensAreDropped := by
  intro cfg line junk hthree
  have hne : tokens isOperandSep (afterOpcode line) ≠ [] := fun h => by simp [h] at hthree
  obtain ⟨w, u, us, hw⟩ := exists_two_tokens hne
  have hw' : tokens isWs (line ++ 0x20#8 :: junk) = w :: u :: (us ++ tokens isWs junk) := by
    rw [tokens_append_sep line junk (by decide), hw, List.cons_append, List.cons_append]
  have hoperands : operandTokens (line ++ 0x20#8 :: junk) = operandTokens line := by
    rw [operandTokens, operandTokens, afterOpcode_append_ws junk hw (by decide), tokens_append_sep _ _ (by decide),
      List.take_append_of_le_length hthree]
  rw [decode_of_not_label (labelName_eq_none_of_two hw), decode_of_not_label (labelName_eq_none_of_two hw'),
    decodeOperation, decodeOperation, hw, hw', hoperands]

end Sys2Proof
end

section
/-! The statements about operand tokens (30_encoding.md): which tokens are of which kind, and the bounds of what a line
decodes to. -/

namespace Sys2Proof

/-! ## Numbers and registers (R59, R61, R62) -/

theorem isRegShape_iff {t : Text} :
    isRegShape t = true ↔ ∃ d, t = 0x72#8 :: d ∧ d ≠ [] ∧ ∀ b ∈ d, isDigit b = true := by
  cases t <;> simp [isRegShape, and_assoc]

theorem parseU64_eq_some {d : Text} {v : Word} : parseU64 d = some v ↔
    d ≠ [] ∧ (∀ b ∈ d, isDigit b = true) ∧ decVal d < 2 ^ 64 ∧ v = BitVec.ofNat 64 (decVal d) := by
  simp only [parseU64, Option.ite_none_right_eq_some, Bool.and_eq_true, Bool.not_eq_true', List.isEmpty_eq_false_iff,
    List.all_eq_true, decide_eq_true_eq, Option.some.injEq, and_assoc, ne_eq, eq_comm (a := v)]

theorem parseReg_eq_some {cfg : Config} {t : Text} {i : Nat} : parseReg cfg t = some i ↔
    ∃ d, t = 0x72#8 :: d ∧ d ≠ [] ∧ (∀ b ∈ d, isDigit b = true) ∧ i = decVal d ∧ i < cfg.numRegs := by
  constructor
  · intro h
    simp only [parseReg, Option.ite_none_right_eq_some, Bool.and_eq_true, decide_eq_true_eq, Option.some.injEq] at h
    obtain ⟨⟨hshape, hlt⟩, rfl⟩ := h
    obtain ⟨d, rfl, hne, hdig⟩ := isRegShape_iff.mp hshape
    exact ⟨d, rfl, hne, hdig, rfl, hlt⟩
  · rintro ⟨d, rfl, hne, hdig, rfl, hlt⟩
    have hshape : isRegShape (0x72#8 :: d) = true := isRegShape_iff.mpr ⟨d, rfl, hne, hdig⟩
    simp [parseReg, hshape, hlt]

theorem isRegShape_of_parseReg {cfg : Config} {t : Text} {i : Nat} (h : parseReg cfg t = some i) :
    isRegShape t = true := by
  obtain ⟨d, rfl, hne, hdig, -⟩ := parseReg_eq_some.mp h
  exact isRegShape_iff.mpr ⟨d, rfl, hne, hdig⟩

/-! ## Memory references (R63) -/

/-- The two parts of a memory token, before its closing bracket: a register, and nothing or `+` and a number. -/
theorem mem_parts_iff {cfg : Config} {e : Text} {base : Nat} {off : Word} :
    (parseReg cfg (e.takeWhile (· != 0x2B#8)) = some base ∧ parseOffset (e.dropWhile (· != 0x2B#8)) = some off) ↔
      (parseReg cfg e = some base ∧ off = 0#64) ∨
      ∃ r o, e = r ++ 0x2B#8 :: o ∧ parseReg cfg r = some base ∧ parseU64 o = some off := by
  have hfree : ∀ {r : Text}, parseReg cfg r = some base → ∀ b ∈ r, (b != 0x2B#8) = true := by
    intro r hr b hb
    obtain ⟨d, rfl, -, hdig, -⟩ := parseReg_eq_some.mp hr
    rcases List.mem_cons.mp hb with rfl | hb
    · decide
    · exact ne_plus_of_isDigit (hdig b hb)
  constructor
  · rintro ⟨hreg, hoff⟩
    have he : e.takeWhile (· != 0x2B#8) ++ e.dropWhile (· != 0x2B#8) = e := List.takeWhile_append_dropWhile
    have hhead := List.head?_dropWhile_not (· != 0x2B#8) e
    cases hd : e.dropWhile (· != 0x2B#8) with
    | nil =>
      rw [hd, List.append_nil] at he
      rw [hd, parseOffset, Option.some.injEq] at hoff
      exact .inl ⟨he ▸ hreg, hoff.symm⟩
    | cons c o =>
      rw [hd] at he hoff hhead
      obtain rfl : c = 0x2B#8 := by simpa using hhead
      exact .inr ⟨_, o, he.symm, hreg, hoff⟩
  · rintro (⟨hreg, rfl⟩ | ⟨r, o, rfl, hreg, hoff⟩)
    · have htake : e.takeWhile (· != 0x2B#8) = e := List.takeWhile_eq_self_iff.mpr (hfree hreg)
      have hdrop : e.dropWhile (· != 0x2B#8) = [] := List.dropWhile_eq_nil_iff.mpr (hfree hreg)
      rw [htake, hdrop]
      exact ⟨hreg, rfl⟩
    · rw [takeWhile_run o (hfree hreg) (by decide), dropWhile_run _ (hfree hreg)]
      exact ⟨hreg, hoff⟩

/-- A memory token after its opening bracket: the parts of `mem_parts_iff` and a closing bracket. -/
theorem classifyMemory_eq_some {cfg : Config} {d : Text} {c : Operand} : classifyMemory cfg d = some c ↔
    ∃ e base off, d = e ++ [0x5D#8] ∧ c = .mem base off ∧
      ((parseReg cfg e = some base ∧ off = 0#64) ∨
        ∃ r o, e = r ++ 0x2B#8 :: o ∧ parseReg cfg r = some base ∧ parseU64 o = some off) := by
  simp only [← mem_parts_iff]
  unfold classifyMemory
  constructor
  · intro h
    split at h
    · rename_i hlast
      obtain ⟨e, rfl⟩ := List.getLast?_eq_some_iff.mp hlast
      rw [List.dropLast_concat] at h
      split at h
      · rename_i base off hbase hoff
        exact ⟨e, base, off, rfl, (Option.some.inj h).symm, hbase, hoff⟩
      · cases h
    · cases h
  · rintro ⟨e, base, off, rfl, rfl, hbase, hoff⟩
    simp [hbase, hoff]

/-! ## The four kinds (R59) -/

theorem classify_hash (cfg : Config) (d : Text) : classify cfg (0x23#8 :: d) = (parseU64 d).map .imm := by
  simp [classify]

theorem classify_bracket (cfg : Config) (d : Text) : classify cfg (0x5B#8 :: d) = classifyMemory cfg d := by
  simp [classify]

/-- A token that starts with neither `#` nor `[` is a register token or a name. -/
theorem classify_other {cfg : Config} {t : Text} (hne : t ≠ []) (hhash : t.head? ≠ some 0x23#8)
    (hbracket : t.head? ≠ some 0x5B#8) :
    classify cfg t = if isRegShape t then (parseReg cfg t).map .reg else some (.name t) := by
  cases t with
  | nil => exact absurd rfl hne
  | cons b d =>
    simp only [List.head?_cons, ne_eq, Option.some.injEq] at hhash hbracket
    rw [classify, if_neg hhash, if_neg hbracket]

/-- What an operand of each kind says of its token. -/
theorem classify_eq_some {cfg : Config} {t : Text} {c : Operand} : classify cfg t = some c ↔
    (∃ d v, t = 0x23#8 :: d ∧ parseU64 d = some v ∧ c = .imm v) ∨
    (∃ d, t = 0x5B#8 :: d ∧ classifyMemory cfg d = some c) ∨
    (∃ i, parseReg cfg t = some i ∧ c = .reg i) ∨
    (t ≠ [] ∧ t.head? ≠ some 0x23#8 ∧ t.head? ≠ some 0x5B#8 ∧ isRegShape t = false ∧ c = .name t) := by
  constructor
  · intro h
    cases t with
    | nil => cases h
    | cons b d =>
      by_cases hhash : b = 0x23#8
      · subst hhash
        rw [classify_hash, Option.map_eq_some_iff] at h
        obtain ⟨v, hv, rfl⟩ := h
        exact .inl ⟨d, v, rfl, hv, rfl⟩
      by_cases hbracket : b = 0x5B#8
      · subst hbracket
        exact .inr (.inl ⟨d, rfl, classify_bracket cfg d ▸ h⟩)
      have hhead : (b :: d).head? ≠ some 0x23#8 ∧ (b :: d).head? ≠ some 0x5B#8 := by simp [hhash, hbracket]
      rw [classify_other (by simp) hhead.1 hhead.2] at h
      split at h
      · obtain ⟨i, hi, rfl⟩ := Option.map_eq_some_iff.mp h
        exact .inr (.inr (.inl ⟨i, hi, rfl⟩))
      · rename_i hshape
        exact .inr (.inr (.inr ⟨by simp, hhead.1, hhead.2, by simpa using hshape, (Option.some.inj h).symm⟩))
  · rintro (⟨d, v, rfl, hv, rfl⟩ | ⟨d, rfl, hc⟩ | ⟨i, hi, rfl⟩ | ⟨hne, hhash, hbracket, hshape, rfl⟩)
    · rw [classify_hash, hv]
      rfl
    · rw [classify_bracket, hc]
    · have hshape := isRegShape_of_parseReg hi
      obtain ⟨d, rfl, -⟩ := parseReg_eq_some.mp hi
      rw [classify_other (by simp) (by simp) (by simp), if_pos hshape, hi]
      rfl
    · rw [classify_other hne hhash hbracket, hshape]
      rfl

theorem classify_eq_imm {cfg : Config} {t : Text} {v : Word} :
    classify cfg t = some (.imm v) ↔ ∃ d, t = 0x23#8 :: d ∧ parseU64 d = some v := by
  simp [classify_eq_some, classifyMemory_eq_some]

theorem classify_eq_reg {cfg : Config} {t : Text} {i : Nat} :
    classify cfg t = some (.reg i) ↔ parseReg cfg t = some i := by
  simp [classify_eq_some, classifyMemory_eq_some]

theorem classify_eq_mem {cfg : Config} {t : Text} {base : Nat} {off : Word} :
    classify cfg t = some (.mem base off) ↔
      ∃ r, parseReg cfg r = some base ∧
        (t = 0x5B#8 :: (r ++ [0x5D#8]) ∧ off = 0#64 ∨
          ∃ o, parseU64 o = some off ∧ t = 0x5B#8 :: (r ++ 0x2B#8 :: (o ++ [0x5D#8]))) := by
  constructor
  · intro h
    simp only [classify_eq_some, classifyMemory_eq_some, reduceCtorEq, and_false, exists_false, false_or, or_false] at h
    obtain ⟨_, rfl, e, base, off, rfl, hc, ⟨hreg, hoff⟩ | ⟨r, o, rfl, hreg, hoff⟩⟩ := h <;> cases hc
    · exact ⟨e, hreg, .inl ⟨rfl, hoff⟩⟩
    · exact ⟨r, hreg, .inr ⟨o, hoff, by simp⟩⟩
  · rintro ⟨r, hreg, ⟨rfl, rfl⟩ | ⟨o, hoff, rfl⟩⟩
    · rw [classify_bracket]
      exact classifyMemory_eq_some.mpr ⟨r, base, _, rfl, rfl, .inl ⟨hreg, rfl⟩⟩
    · rw [classify_bracket]
      exact classifyMemory_eq_some.mpr ⟨_, base, off, by simp, rfl, .inr ⟨r, o, rfl, hreg, hoff⟩⟩

theorem classify_eq_name {cfg : Config} {t s : Text} :
    classify cfg t = some (.name s) ↔
      s = t ∧ t ≠ [] ∧ t.head? ≠ some 0x23#8 ∧ t.head? ≠ some 0x5B#8 ∧ isRegShape t = false := by
  simp only [classify_eq_some, classifyMemory_eq_some, reduceCtorEq, and_false, false_and, exists_false, false_or,
    Operand.name.injEq]
  tauto

/-- Settles O7: one lemma per kind, with the forms of a register token and of a number written out. -/
theorem tokensClassifyByTheirForm : Obligations.TokensClassifyByTheirForm := by
  intro cfg t
  refine ⟨fun v => ?_, fun i => ?_, fun base off => ?_, fun s => ?_⟩
  · simp only [classify_eq_imm, parseU64_eq_some]
  · rw [classify_eq_reg, parseReg_eq_some]
  · simp only [classify_eq_mem, parseReg_eq_some, parseU64_eq_some]
    constructor
    · rintro ⟨_, ⟨d, rfl, hne, hdig, hbase, hlt⟩, ⟨rfl, hoff⟩ | ⟨o, ⟨hone, hodig, hov, hoff⟩, rfl⟩⟩
      · exact ⟨d, hne, hdig, hbase, hlt, .inl ⟨rfl, hoff⟩⟩
      · exact ⟨d, hne, hdig, hbase, hlt, .inr ⟨o, hone, hodig, hov, hoff, rfl⟩⟩
    · rintro ⟨d, hne, hdig, hbase, hlt, ⟨rfl, hoff⟩ | ⟨o, hone, hodig, hov, hoff, rfl⟩⟩
      · exact ⟨_, ⟨d, rfl, hne, hdig, hbase, hlt⟩, .inl ⟨rfl, hoff⟩⟩
      · exact ⟨_, ⟨d, rfl, hne, hdig, hbase, hlt⟩, .inr ⟨o, ⟨hone, hodig, hov, hoff⟩, rfl⟩⟩
  · rw [classify_eq_name, ← isRegShape_iff, Bool.not_eq_true]

/-! ## The bounds of R65 -/

/-- What a token classifies as is within the bounds of R65. -/
theorem classify_wf {cfg : Config} {t : Text} {c : Operand} (hfree : ∀ b ∈ t, isOperandSep b = false)
    (h : classify cfg t = some c) : c.wf cfg = true := by
  cases c with
  | imm v => rfl
  | reg i =>
    obtain ⟨d, -, -, -, -, hlt⟩ := parseReg_eq_some.mp (classify_eq_reg.mp h)
    simpa [Operand.wf] using hlt
  | mem base off =>
    obtain ⟨r, hreg, -⟩ := classify_eq_mem.mp h
    obtain ⟨d, -, -, -, -, hlt⟩ := parseReg_eq_some.mp hreg
    simpa [Operand.wf] using hlt
  | name s =>
    obtain ⟨rfl, hne, hhash, hbracket, hshape⟩ := classify_eq_name.mp h
    simp only [Operand.wf, nameWf, Bool.and_eq_true, bne_iff_ne, Bool.not_eq_true', List.isEmpty_eq_false_iff,
      List.all_eq_true]
    exact ⟨⟨⟨⟨hne, hfree⟩, hhash⟩, hbracket⟩, hshape⟩

theorem operandTokens_length_le (line : Text) : (operandTokens line).length ≤ 3 := List.length_take_le ..

/-- An operand token holds no separator. -/
theorem operandTokens_free {line t : Text} (h : t ∈ operandTokens line) : ∀ b ∈ t, isOperandSep b = false := by
  obtain ⟨-, hfree⟩ := tokens_mem (List.mem_of_mem_take h)
  exact hfree

/-- The operands of a line are at most three, each within its bounds. -/
theorem operandsWf_of_classify {cfg : Config} {line : Text} {ops : List Operand}
    (h : (operandTokens line).map (classify cfg) = ops.map some) : operandsWf cfg ops = true := by
  have hlen : (operandTokens line).length = ops.length := by simpa using congrArg List.length h
  have hwf : ∀ c ∈ ops, c.wf cfg = true := by
    intro c hc
    have hmem : some c ∈ (operandTokens line).map (classify cfg) := h ▸ List.mem_map_of_mem hc
    obtain ⟨t, ht, htc⟩ := List.mem_map.mp hmem
    exact classify_wf (operandTokens_free ht) htc
  simp only [operandsWf, Bool.and_eq_true, decide_eq_true_eq, List.all_eq_true]
  exact ⟨hlen ▸ operandTokens_length_le line, hwf⟩

/-- The opcode test answers a STORE only with `HAS_STORE`, and gives no other instruction a bound of its own (R57). -/
theorem recognize_wf {cfg : Config} {ops : List Operand} (u : Text) (h : operandsWf cfg ops = true) :
    (recognize cfg u ops).wf cfg = true := by
  unfold recognize
  split_ifs with _ _ _ _ _ _ hstore
  iterate 6 exact h
  · obtain ⟨hhas, -⟩ := Bool.and_eq_true_iff.mp hstore
    rw [Instr.wf, hhas, h, Bool.and_self]
  · exact h

/-- Settles O3, by the three kinds of line that decode: an Operation has the classified operand tokens as its operands,
whatever the opcode test answers. -/
theorem decodeGivesBoundedOperations : Obligations.DecodeGivesBoundedOperations := by
  intro cfg line i h
  rcases decode_instr_cases h with ⟨name, hname, rfl⟩ | ⟨hblank, rfl⟩ | ⟨w, ws, ops, -, hops, rfl⟩
  · obtain ⟨before, after, -, -, -, hfree⟩ := tokens_eq_label_iff.mp (labelName_eq_some.mp hname)
    exact ⟨by simpa [Instr.wf] using hfree, by simp [Instr.operands?]⟩
  · have htokens : operandTokens line = [] := by rw [operandTokens, afterOpcode_eq_nil hblank]; rfl
    refine ⟨rfl, fun ops hops j => ?_⟩
    cases hops
    simp [htokens]
  · refine ⟨recognize_wf _ (operandsWf_of_classify hops), fun ops' hops' j => ?_⟩
    obtain rfl : ops = ops' := by simpa using hops'
    have hslot : ((operandTokens line).map (classify cfg))[j]? = (ops.map some)[j]? := by rw [hops]
    simpa [Option.bind_map, Function.comp_def] using (congrArg (Option.bind · id) hslot).symm

end Sys2Proof
end

section
/-! The statements about opcodes and well-shaped lines (30_encoding.md): the opcode table's test by length, match and
mask, lines written out byte by byte, and what the well-shaped forms do with their operands. -/

namespace Sys2Proof

/-! ## The bytes of a token as one number (R74) -/

theorem textNat_append_singleton (t : Text) (b : Byte) : textNat (t ++ [b]) = 256 * textNat t + b.toNat := by
  simp [textNat, List.foldl_append]

theorem textNat_eq_ofDigits (t : Text) : textNat t = Nat.ofDigits 256 (t.reverse.map BitVec.toNat) := by
  induction t using List.reverseRecOn with
  | nil => rfl
  | append_singleton t b ih =>
    rw [textNat_append_singleton, ih, List.reverse_concat, List.map_cons, Nat.ofDigits_cons]
    exact Nat.add_comm ..

/-- The bytes of a number of known length are determined by it. -/
theorem textNat_inj {t u : Text} (hlen : t.length = u.length) (h : textNat t = textNat u) : t = u := by
  have hlt : ∀ w : Text, ∀ d ∈ w.reverse.map BitVec.toNat, d < 256 := by
    intro w d hd
    obtain ⟨b, -, rfl⟩ := List.mem_map.mp hd
    exact b.isLt
  rw [textNat_eq_ofDigits, textNat_eq_ofDigits] at h
  have hdigits := Nat.ofDigits_inj_of_len_eq (by decide) (by simpa using hlen) (hlt t) (hlt u) h
  have hrev := List.map_injective_iff.mpr (fun _ _ => BitVec.eq_of_toNat_eq) hdigits
  exact List.reverse_injective hrev

/-- The bitwise and of two numbers, the low byte apart. -/
theorem and_low_byte (x y : Nat) {b m : Nat} (hb : b < 256) (hm : m < 256) :
    (256 * x + b) &&& (256 * y + m) = 256 * (x &&& y) + (b &&& m) := by
  have hdiv := Nat.and_div_two_pow (a := 256 * x + b) (b := 256 * y + m) (n := 8)
  have hmod := Nat.and_mod_two_pow (a := 256 * x + b) (b := 256 * y + m) (n := 8)
  simp only [Nat.reducePow, Nat.mul_add_div (by decide : 0 < 256), Nat.mul_add_mod, Nat.div_eq_of_lt hb,
    Nat.div_eq_of_lt hm, Nat.mod_eq_of_lt hb, Nat.mod_eq_of_lt hm, Nat.add_zero] at hdiv hmod
  omega

/-- Masking the number of a text masks each of its bytes. -/
theorem textNat_and_mask (t : Text) (m : Byte) :
    textNat t &&& textNat (List.replicate t.length m) = textNat (t.map (· &&& m)) := by
  induction t using List.reverseRecOn with
  | nil => simp [textNat]
  | append_singleton t b ih =>
    rw [List.length_append, List.length_singleton, List.replicate_succ', List.map_append, List.map_singleton,
      textNat_append_singleton, textNat_append_singleton, textNat_append_singleton, ← ih, BitVec.toNat_and]
    exact and_low_byte _ _ b.isLt m.isLt

/-! ## Upper-casing as a mask (R56, R74) -/

/-- An upper-case letter (R51): 0x41 to 0x5A. -/
def isUpper (b : Byte) : Bool := 0x41 ≤ b.toNat && b.toNat ≤ 0x5A

theorem mask_eq_upperByte {b : Byte} (h : isUpper (upperByte b) = true) : b &&& 0xDF#8 = upperByte b := by
  revert b
  decide

theorem upperByte_eq_mask {b : Byte} (h : isUpper (b &&& 0xDF#8) = true) : upperByte b = b &&& 0xDF#8 := by
  revert b
  decide

/-- A byte upper-cases to a given upper-case letter exactly when clearing bit 5 gives that letter. -/
theorem upperByte_eq_iff {b c : Byte} (hc : isUpper c = true) : upperByte b = c ↔ b &&& 0xDF#8 = c := by
  constructor <;> rintro rfl
  · exact mask_eq_upperByte hc
  · exact upperByte_eq_mask hc

theorem upper_eq_iff_mask {t u : Text} (hu : ∀ c ∈ u, isUpper c = true) :
    upper t = u ↔ t.map (· &&& 0xDF#8) = u := by
  induction t generalizing u with
  | nil => rfl
  | cons b t ih =>
    cases u with
    | nil => simp [upper]
    | cons c u =>
      simp only [upper, List.map_cons, List.cons.injEq, upperByte_eq_iff (hu c List.mem_cons_self)]
      exact and_congr_right fun _ => ih fun x hx => hu x (List.mem_cons_of_mem _ hx)

/-- The row's test of the opcode table is the comparison with the upper-cased token (R57, R74). -/
theorem upper_eq_iff_fitsRow {t u : Text} (hu : ∀ c ∈ u, isUpper c = true) :
    upper t = u ↔ Machine.fitsRow t u.length (textNat u) (textNat (List.replicate u.length 0xDF#8)) := by
  rw [upper_eq_iff_mask hu]
  constructor
  · rintro rfl
    rw [List.length_map]
    exact ⟨rfl, textNat_and_mask t 0xDF#8⟩
  · rintro ⟨hlen, hmask⟩
    rw [← hlen, textNat_and_mask] at hmask
    exact textNat_inj (by simpa using hlen) hmask

/-! ## The rows (R57, R74) -/

/-- The mnemonics of the opcode table (R57, R74). -/
def mnemonics : List Text := [tokMovi, tokLoad, tokStore, tokAdd, tokDec, tokBne, tokHalt]

theorem mnemonics_isUpper : ∀ u ∈ mnemonics, ∀ c ∈ u, isUpper c = true := by decide

theorem recognize_store (cfg : Config) (ops : List Operand) :
    recognize cfg tokStore ops = if cfg.hasStore then .store ops else .unrecognized ops := by
  cases h : cfg.hasStore <;> simp [recognize, h, tokStore, tokMovi, tokLoad, tokAdd, tokDec, tokBne, tokHalt]

/-- The opcode test answers the unrecognized opcode for what is no mnemonic. -/
theorem recognize_unrecognized {cfg : Config} {u : Text} {ops : List Operand} (h : u ∉ mnemonics) :
    recognize cfg u ops = .unrecognized ops := by
  simp only [mnemonics, List.mem_cons, List.not_mem_nil, or_false, not_or] at h
  simp [recognize, h]

/-- Settles O5: the row of a mnemonic fits exactly the tokens that upper-case to it (`upper_eq_iff_fitsRow`), and the
opcode test compares the upper-cased token with the mnemonics. -/
theorem opcodeTestIsMatchAndMask : Obligations.OpcodeTestIsMatchAndMask := by
  have hrow : ∀ (t : Text), ∀ u ∈ mnemonics, upper t = u ↔
      Machine.fitsRow t u.length (textNat u) (textNat (List.replicate u.length 0xDF#8)) :=
    fun _ u hu => upper_eq_iff_fitsRow (mnemonics_isUpper u hu)
  refine ⟨fun cfg line optok ops hlabel hhead hops => ?_, fun cfg line => decode_of_tokens_nil, hrow,
    rfl, rfl, rfl, rfl, rfl, rfl, rfl⟩
  obtain ⟨ws, hw⟩ := List.head?_eq_some_iff.mp hhead
  rw [decode_of_operands hlabel hw hops]
  simp only [DecodeResult.instr.injEq]
  have hfit : ∀ u ∈ mnemonics, Machine.fitsRow optok u.length (textNat u) (textNat (List.replicate u.length 0xDF#8)) →
      recognize cfg (upper optok) ops = recognize cfg u ops := fun u hu h => by rw [(hrow optok u hu).mpr h]
  refine ⟨hfit tokMovi (by decide), hfit tokLoad (by decide), hfit tokAdd (by decide), hfit tokDec (by decide),
    hfit tokBne (by decide), hfit tokHalt (by decide),
    fun h => (hfit tokStore (by decide) h).trans (recognize_store cfg ops), ?_⟩
  intro hmovi hload hadd hdec hbne hhalt hstore
  refine recognize_unrecognized fun hmem => ?_
  have hfits := (hrow optok _ hmem).mp rfl
  simp only [mnemonics, List.mem_cons, List.not_mem_nil, or_false] at hmem
  rcases hmem with h | h | h | h | h | h | h <;> rw [h] at hfits
  exacts [hmovi hfits, hload hfits, hstore hfits, hadd hfits, hdec hfits, hbne hfits, hhalt hfits]

/-- Settles O1: each line is evaluated by the Decoder. -/
theorem decodeOfWrittenOutLines : Obligations.DecodeOfWrittenOutLines := by
  unfold Obligations.DecodeOfWrittenOutLines
  decide

end Sys2Proof

namespace Sys2Proof.Machine

/-! ## The well-shaped forms (R67) -/

/-- A MOVI completes, and its register holds the immediate of slot 1. -/
theorem exec_movi_readReg {ops : List Operand} {s : State} (hreg : regSlot ops 0 < s.x.length) :
    ∃ t, exec (.movi ops) s = .next t ∧ t.readReg (regSlot ops 0) = immSlot ops 1 :=
  ⟨_, exec_movi ops s, (State.apply_readReg ..).trans (State.readReg_writeReg_self s.dispatched _ hreg)⟩

/-- A STORE within bounds completes, and the word at the effective address is the register of slot 0. -/
theorem exec_store_readWord {ops : List Operand} {s : State} (hmem : s.mem.wf = true)
    (hb : effectiveAddress s ops 1 + 8 ≤ s.cfg.memSize) :
    ∃ t, exec (.store ops) s = .next t ∧
      t.mem.readWord (effectiveAddress s ops 1) = s.readReg (regSlot ops 0) :=
  ⟨_, exec_store_inBounds hb, Memory.readWord_writeWord_self _ _ hmem⟩

/-- An ADD completes with the sum in its register and the flags of the sum. -/
theorem exec_add_sum {ops : List Operand} {s : State} (hreg : regSlot ops 0 < s.x.length) :
    ∃ t, exec (.add ops) s = .next t ∧
      t.readReg (regSlot ops 0) = s.readReg (regSlot ops 1) + valSlot s ops 2 ∧
      t.flags = (addFlags (s.readReg (regSlot ops 1)) (valSlot s ops 2)).2 :=
  ⟨_, exec_add ops s, (State.apply_readReg ..).trans (State.readReg_writeReg_self s.dispatched _ hreg), rfl⟩

/-- A DEC completes with its register one lower, modulo `2^64`, and the flags of adding `2^64 - 1`. -/
theorem exec_dec_difference {ops : List Operand} {s : State} (hreg : regSlot ops 0 < s.x.length) :
    ∃ t, exec (.dec ops) s = .next t ∧
      t.readReg (regSlot ops 0) = s.readReg (regSlot ops 0) - 1#64 ∧
      t.flags = (addFlags (s.readReg (regSlot ops 0)) (BitVec.allOnes 64)).2 := by
  refine ⟨_, exec_dec ops s, ?_, rfl⟩
  rw [State.apply_readReg, State.writeFlags_readReg, State.readReg_writeReg_self s.dispatched _ hreg,
    BitVec.sub_eq_add_neg, BitVec.neg_one_eq_allOnes]

/-- Settles O32: each slot of a well-shaped form is the operand that stands in it, so the lemma of each meaning speaks
of the operands' own values. -/
theorem wellShapedFormsUseTheirOperands : Obligations.WellShapedFormsUseTheirOperands := by
  intro s rd a b v off name rest hinv hrd
  have hreg : rd < s.x.length := hinv.regs_length ▸ hrd
  have hload := exec_load_readReg (s := s) (ops := .reg rd :: .mem b off :: rest) hreg
  have hstore := exec_store_readWord (s := s) (ops := .reg rd :: .mem b off :: rest) hinv.mem_wf
  have hloadFault := exec_load_outOfBounds (s := s) (ops := .reg rd :: .mem b off :: rest)
  have hstoreFault := exec_store_outOfBounds (s := s) (ops := .reg rd :: .mem b off :: rest)
  exact ⟨exec_movi_readReg hreg, fun hb => ⟨hload hb, hstore hb⟩,
    fun hb => ⟨⟨_, hloadFault hb, rfl⟩, _, hstoreFault hb, rfl⟩,
    exec_add_sum hreg, exec_add_sum hreg, exec_dec_difference hreg, fun hz => ⟨_, exec_bne_taken hz, rfl⟩⟩

end Sys2Proof.Machine
end

section
/-! The statements common to all instructions (40_execution_common.md): what stands in an operand slot, the defaults at
work, and the flags. -/

namespace Sys2Proof.Machine

/-! ## Operand slots (R79 to R81) -/

section Slots

variable {ops : List Operand} {j : Nat}

theorem regSlot_of_reg {i : Nat} (h : ops[j]? = some (.reg i)) : regSlot ops j = i := by simp [regSlot, h]

theorem immSlot_of_imm {v : Word} (h : ops[j]? = some (.imm v)) : immSlot ops j = v := by simp [immSlot, h]

theorem memSlot_of_mem {b : Nat} {o : Word} (h : ops[j]? = some (.mem b o)) : memSlot ops j = (b, o) := by
  simp [memSlot, h]

theorem nameSlot_of_name {n : Text} (h : ops[j]? = some (.name n)) : nameSlot ops j = n := by simp [nameSlot, h]

theorem valSlot_of_reg (s : State) {i : Nat} (h : ops[j]? = some (.reg i)) : valSlot s ops j = s.readReg i := by
  simp [valSlot, h]

theorem valSlot_of_imm (s : State) {v : Word} (h : ops[j]? = some (.imm v)) : valSlot s ops j = v := by
  simp [valSlot, h]

theorem regSlot_default (h : ∀ i, ops[j]? ≠ some (.reg i)) : regSlot ops j = 0 := by
  unfold regSlot
  split
  · next i hi => exact absurd hi (h i)
  · rfl

theorem immSlot_default (h : ∀ v, ops[j]? ≠ some (.imm v)) : immSlot ops j = 0#64 := by
  unfold immSlot
  split
  · next v hv => exact absurd hv (h v)
  · rfl

theorem memSlot_default (h : ∀ b o, ops[j]? ≠ some (.mem b o)) : memSlot ops j = (0, 0#64) := by
  unfold memSlot
  split
  · next b o hm => exact absurd hm (h b o)
  · rfl

theorem nameSlot_default (h : ∀ n, ops[j]? ≠ some (.name n)) : nameSlot ops j = [] := by
  unfold nameSlot
  split
  · next n hn => exact absurd hn (h n)
  · rfl

/-- The default of R80 is the value 0, not register 0. -/
theorem valSlot_default (s : State) (hreg : ∀ i, ops[j]? ≠ some (.reg i)) (himm : ∀ v, ops[j]? ≠ some (.imm v)) :
    valSlot s ops j = 0#64 := by
  unfold valSlot
  split
  · next i hi => exact absurd hi (hreg i)
  · next v hv => exact absurd hv (himm v)
  · rfl

end Slots

/-- Settles O31: for each slot function, its value at the expected kind and its default at everything else. -/
theorem slotsResolveByKind : Obligations.SlotsResolveByKind := fun s _ _ =>
  ⟨fun _ h => ⟨regSlot_of_reg h, valSlot_of_reg s h⟩, fun _ h => ⟨immSlot_of_imm h, valSlot_of_imm s h⟩,
    fun _ _ => memSlot_of_mem, fun _ => nameSlot_of_name, regSlot_default, immSlot_default, memSlot_default,
    nameSlot_default, valSlot_default s⟩

/-- An ADD whose slot 2 is neither a register nor an immediate moves its first addend. -/
theorem exec_add_defaultAddend {ops : List Operand} {s : State} (hrd : regSlot ops 0 < s.x.length)
    (hreg : ∀ i, ops[2]? ≠ some (.reg i)) (himm : ∀ v, ops[2]? ≠ some (.imm v)) :
    ∃ t, exec (.add ops) s = .next t ∧ t.readReg (regSlot ops 0) = s.readReg (regSlot ops 1) := by
  obtain ⟨t, hexec, hsum, -⟩ := exec_add_sum hrd
  exact ⟨t, hexec, by rw [hsum, valSlot_default s hreg himm, BitVec.add_zero]⟩

/-- Settles O30: the slots of each listed form are its operands or the defaults, so the lemma of each meaning gives the
result; register 0, which a default may name, exists by R8. -/
theorem absentOperandsTakeDefaults : Obligations.AbsentOperandsTakeDefaults := by
  intro s r v n b o hinv hr
  have hreg : r < s.x.length := hinv.regs_length ▸ hr
  have hreg0 : 0 < s.x.length := Nat.zero_lt_of_lt hreg
  have hload := exec_load_readReg (s := s) (ops := [.reg r, .reg r]) hreg
  exact ⟨exec_movi_readReg hreg0, exec_movi_readReg hreg0, exec_movi_readReg hreg0, exec_movi_readReg hreg,
    exec_add_defaultAddend hreg (by simp) (by simp), exec_add_defaultAddend hreg (by simp) (by simp), hload,
    fun hz => ⟨_, exec_bne_taken hz, rfl⟩⟩

/-! ## The flags (R82, R83) -/

/-- Settles O36, by the forms of `exec`: ADD and DEC share the one that writes the flags, from their addends alone, and
no update of another form reaches them. -/
theorem flagsWrittenByAddAndDecOnly : Obligations.FlagsWrittenByAddAndDecOnly := by
  intro i s t h
  rcases exec_cases h with ⟨ops, rfl, rfl⟩ | ⟨ops, rfl, -, rfl⟩ | ⟨ops, rfl, -, rfl⟩ | ⟨ops, rfl | rfl, -, rfl⟩ |
    ⟨ops, rd, a, b, ⟨rfl, rfl, rfl⟩ | ⟨rfl, rfl, rfl⟩, -, rfl⟩ | ⟨ops, rfl, -, rfl⟩ | ⟨ops, ⟨rfl, -⟩ | rfl, rfl⟩ |
    ⟨ops, rfl, rfl⟩ | ⟨name, rfl, rfl⟩ <;> rfl

end Sys2Proof.Machine
end

section
/-! The statements about label lines (44_control.md). -/

namespace Sys2Proof.Machine

/-- A Running step whose line decodes is the execution of that line and adds nothing around it (R106). -/
theorem step_of_decode {s : State} {i : Instr} (hrun : s.status = .running)
    (hdec : decode s.cfg s.line = .instr i) : step s = exec i s := by
  simp only [step, hrun, hdec]

/-- Settles O29: a label line decodes to its label definition, whose meaning is the ControlEffect `advance` on a state
that was not dispatched, so without the log entry. -/
theorem labelLineOnlyAdvancesPc : Obligations.LabelLineOnlyAdvancesPc := by
  refine ⟨fun s name => exec_labelDef name s, fun s name hrun hlabel => ?_⟩
  calc step s = exec (.labelDef name) s := step_of_decode hrun (decode_of_label hlabel)
    _ = .next (s.apply .advance) := exec_labelDef name s

end Sys2Proof.Machine
end

section
/-! The statements about the Label Resolver and the run loop (45_controller.md): which definition the label map keeps,
what a lookup gives, and what a run keeps. -/

namespace Sys2Proof.Machine

/-! ## The Label Resolver (R101 to R104) -/

/-- An insertion answers for its own name and for no other (R102). -/
theorem labelIndex?_insertLabel (labels : LabelMap) (t s : Text) (i : Nat) :
    labelIndex? (insertLabel labels t i) s = if t = s then some i else labelIndex? labels s := by
  by_cases h : t = s
  · simp [labelIndex?, insertLabel, h]
  · have hkept : (fun e : Text × Nat => decide ((e.1 != t) = true ∧ (e.1 == s) = true)) = fun e => e.1 == s := by
      funext e
      by_cases he : e.1 = s <;> simp [he, Ne.symm h]
    rw [labelIndex?, insertLabel, List.find?_cons_of_neg (by simpa using h), List.find?_filter, hkept, if_neg h,
      labelIndex?]

theorem resolveFrom_append (i : Nat) (p q : List Text) (labels : LabelMap) :
    resolveFrom i (p ++ q) labels = resolveFrom (i + p.length) q (resolveFrom i p labels) := by
  induction p generalizing i labels with
  | nil => rfl
  | cons line p ih =>
    cases hl : labelName line <;> simp [resolveFrom, hl, ih, Nat.add_assoc, Nat.add_comm 1]

/-- The forward pass, seen from its last line: a definition there overrides what the lines before it gave. -/
theorem labelIndex?_resolve_concat (p : List Text) (line s : Text) :
    labelIndex? (resolve (p ++ [line])) s =
      if labelName line = some s then some p.length else labelIndex? (resolve p) s := by
  rw [resolve, resolveFrom_append, Nat.zero_add, ← resolve]
  cases hl : labelName line <;> simp [resolveFrom, hl, labelIndex?_insertLabel]

/-- `i` is the index of the last line of the Program that defines `s`. -/
def IsLastDefinition (program : List Text) (s : Text) (i : Nat) : Prop :=
  (∃ line, program[i]? = some line ∧ labelName line = some s) ∧
  ∀ j line, i < j → program[j]? = some line → labelName line ≠ some s

theorem isLastDefinition_nil (s : Text) (i : Nat) : ¬ IsLastDefinition [] s i := by simp [IsLastDefinition]

theorem getElem?_concat_eq_some {p : List Text} {line l : Text} {i : Nat} :
    (p ++ [line])[i]? = some l ↔ p[i]? = some l ∨ i = p.length ∧ line = l := by
  grind

/-- The last line, where it defines the name, is its last definition. -/
theorem isLastDefinition_concat_self {p : List Text} {line s : Text} {i : Nat} (h : labelName line = some s) :
    IsLastDefinition (p ++ [line]) s i ↔ i = p.length := by
  constructor
  · rintro ⟨⟨l, hl, -⟩, hlast⟩
    rcases getElem?_concat_eq_some.mp hl with hl | ⟨hi, -⟩
    · have hi : i < p.length := (List.getElem?_eq_some_iff.mp hl).1
      exact absurd h (hlast p.length line hi List.getElem?_concat_length)
    · exact hi
  · rintro rfl
    refine ⟨⟨line, List.getElem?_concat_length, h⟩, fun j l hj hl => ?_⟩
    rw [List.getElem?_eq_none (by simpa using hj)] at hl
    cases hl

/-- A last line that does not define the name leaves its last definition where it was. -/
theorem isLastDefinition_concat_other {p : List Text} {line s : Text} {i : Nat} (h : labelName line ≠ some s) :
    IsLastDefinition (p ++ [line]) s i ↔ IsLastDefinition p s i := by
  have hsame : ∀ j l, labelName l = some s → ((p ++ [line])[j]? = some l ↔ p[j]? = some l) := fun j l hl =>
    getElem?_concat_eq_some.trans (or_iff_left fun ⟨_, hline⟩ => h (hline ▸ hl))
  exact and_congr (exists_congr fun l => and_congr_left (hsame i l)) (forall₃_congr fun j l _ =>
    ⟨fun hlater hl hdef => hlater ((hsame j l hdef).mpr hl) hdef,
      fun hlater hl hdef => hlater ((hsame j l hdef).mp hl) hdef⟩)

/-- Settles O12, by induction on the Program from its last line: that line either defines the name, and is its last
definition, or leaves the name's last definition where it was. -/
theorem resolverKeepsTheLastDefinition : Obligations.ResolverKeepsTheLastDefinition := by
  intro program s i
  change labelIndex? (resolve program) s = some i ↔ IsLastDefinition program s i
  induction program using List.reverseRecOn with
  | nil => simp [resolve, resolveFrom, labelIndex?, isLastDefinition_nil]
  | append_singleton p line ih =>
    rw [labelIndex?_resolve_concat]
    split
    · next hself => rw [isLastDefinition_concat_self hself, Option.some.injEq, eq_comm]
    · next hother => rw [isLastDefinition_concat_other hother, ih]

/-- A label map entry is the index of a line of its Program. -/
theorem lt_length_of_labelIndex? {program : List Text} {s : Text} {i : Nat}
    (h : labelIndex? (resolve program) s = some i) : i < program.length := by
  obtain ⟨⟨line, hline, -⟩, -⟩ := (resolverKeepsTheLastDefinition program s i).mp h
  exact (List.getElem?_eq_some_iff.mp hline).1

theorem lookup_of_some {labels : LabelMap} {s : Text} {i : Nat} (h : labelIndex? labels s = some i) :
    lookup labels s = i := by simp [lookup, h]

theorem lookup_of_none {labels : LabelMap} {s : Text} (h : labelIndex? labels s = none) : lookup labels s = 0 := by
  simp [lookup, h]

theorem lookup_lt_length {program : List Text} (s : Text) (h : 0 < program.length) :
    lookup (resolve program) s < program.length := by
  cases hentry : labelIndex? (resolve program) s with
  | none => rwa [lookup_of_none hentry]
  | some i =>
    rw [lookup_of_some hentry]
    exact lt_length_of_labelIndex? hentry

/-- Settles O13: an entry is a line's index by the characterisation of the map, and line 0 exists in a Program with a
line. -/
theorem lookupGivesALineIndex : Obligations.LookupGivesALineIndex := fun _ s =>
  ⟨fun _ => lookup_of_some, lookup_of_none, fun hne => lookup_lt_length s (List.length_pos_iff.mpr hne)⟩

/-! ## What keeps the invariant (R110) -/

section Updates

variable {s : State}

theorem State.Inv.dispatched (h : s.Inv) : s.dispatched.Inv := { h with }

theorem State.Inv.writeReg (h : s.Inv) (i : Nat) (w : Word) : (s.writeReg i w).Inv :=
  { h with regs_length := List.length_set.trans h.regs_length }

theorem State.Inv.writeFlags (h : s.Inv) (f : Flags) : (s.writeFlags f).Inv := { h with }

theorem State.Inv.storeWord (h : s.Inv) {ea : Nat} (w : Word) (hb : ea + 8 ≤ s.cfg.memSize) : (s.storeWord ea w).Inv :=
  { h with
    mem_wf := Memory.writeWord_wf ea w h.mem_wf
    mem_within := Memory.writeWord_within w h.mem_within hb }

/-- A run start leaves no fault and no halt for the invariant to speak of (D29). -/
theorem State.Inv.runStart (h : s.Inv) {program : List Text} (hfits : programFits program) :
    (s.runStart program).Inv :=
  { h with
    program_fits := hfits
    pc_le := Nat.zero_le _
    halted_pc := by simp
    fault_not_halted := by simp
    fault_fits := by simp }

/-- From a Running state, `pc` may go anywhere up to one past the last line. -/
theorem State.Inv.setPc (h : s.Inv) (hrun : s.status = .running) {pc : Nat} (hpc : pc ≤ s.program.length) :
    State.Inv { s with pc := pc } := by
  obtain ⟨hfault, hhalted, -⟩ := s.status_running.mp hrun
  exact { h with
    pc_le := hpc
    halted_pc := by simp [hhalted]
    fault_fits := by simp [hfault] }

theorem State.Inv.apply_advance (h : s.Inv) (hrun : s.status = .running) : (s.apply .advance).Inv :=
  h.setPc hrun (s.status_running.mp hrun).2.2

theorem State.Inv.apply_halt (h : s.Inv) (hrun : s.status = .running) : (s.apply .halt).Inv := by
  obtain ⟨hfault, -, hpc⟩ := s.status_running.mp hrun
  exact { h with
    halted_pc := fun _ => hpc
    fault_not_halted := by simp [hfault] }

theorem State.Inv.raise (h : s.Inv) (hrun : s.status = .running) {f : Fault} (hfits : f.fits s) : (s.raise f).Inv :=
  { h with
    fault_not_halted := fun _ => State.not_halted_of_running (s := s) hrun
    fault_fits := fun _ hf => Option.some.inj hf ▸ hfits }

end Updates

/-- Executing an instruction in a Running state keeps the invariant. -/
theorem exec_keeps_inv {i : Instr} {s t : State} (hinv : s.Inv) (hrun : s.status = .running)
    (h : exec i s = .next t) : t.Inv := by
  have hpc : s.pc < s.program.length := (s.status_running.mp hrun).2.2
  have hd : s.dispatched.Inv := hinv.dispatched
  rcases exec_cases h with ⟨ops, -, rfl⟩ | ⟨ops, -, -, rfl⟩ | ⟨ops, -, hb, rfl⟩ | ⟨ops, -, hb, rfl⟩ |
    ⟨ops, rd, a, b, -, -, rfl⟩ | ⟨ops, -, -, rfl⟩ | ⟨ops, -, rfl⟩ | ⟨ops, -, rfl⟩ | ⟨name, -, rfl⟩
  · exact (hd.writeReg _ _).apply_advance hrun
  · exact (hd.writeReg _ _).apply_advance hrun
  · exact (hd.storeWord _ hb).apply_advance hrun
  · exact hd.raise hrun ⟨rfl, hpc, hb⟩
  · exact ((hd.writeReg _ _).writeFlags _).apply_advance hrun
  · exact hd.setPc hrun (lookup_lt_length _ (Nat.zero_lt_of_lt hpc)).le
  · exact hd.apply_advance hrun
  · exact hd.apply_halt hrun
  · exact hinv.apply_advance hrun

/-- The slot of a Malformed token is the slot of one of the tokens that are classified (R64). -/
theorem classifyFrom_error_slot_lt {cfg : Config} {j slot : Nat} {ts : List Text} {token : Text}
    (h : classifyFrom cfg j ts = .error (slot, token)) : slot < j + ts.length := by
  induction ts generalizing j with
  | nil => simp [classifyFrom] at h
  | cons t ts ih =>
    cases hc : classify cfg t with
    | none =>
      simp only [classifyFrom, hc, Except.error.injEq, Prod.mk.injEq] at h
      simp [← h.1]
    | some c =>
      cases hr : classifyFrom cfg (j + 1) ts with
      | ok cs => simp [classifyFrom, hc, hr] at h
      | error e =>
        simp only [classifyFrom, hc, hr, Except.error.injEq] at h
        have := ih (h ▸ hr)
        simp
        omega

/-- A DecodeError names one of the three slots (R58, R117). -/
theorem decode_error_slot_lt {cfg : Config} {line token : Text} {slot : Nat}
    (h : decode cfg line = .error slot token) : slot < 3 := by
  cases hl : labelName line with
  | some name => simp [decode_of_label hl] at h
  | none =>
    rw [decode_of_not_label hl, decodeOperation] at h
    split at h
    · cases h
    · split at h
      · cases h
      · next j t hc =>
        cases h
        have := classifyFrom_error_slot_lt hc
        have := operandTokens_length_le line
        omega

/-- Every step keeps the invariant. -/
theorem step_keeps_inv {s t : State} (hinv : s.Inv) (h : step s = .next t) : t.Inv := by
  rcases step_cases h with ⟨-, rfl⟩ | ⟨hrun, slot, token, hdec, rfl⟩ | ⟨hrun, i, -, hexec⟩
  · exact hinv
  · have hpc : s.pc < s.program.length := (s.status_running.mp hrun).2.2
    exact hinv.raise hrun ⟨rfl, hpc, hdec, decode_error_slot_lt hdec⟩
  · exact exec_keeps_inv hinv hrun hexec

theorem exec_program_cfg {i : Instr} {s t : State} (h : exec i s = .next t) :
    t.program = s.program ∧ t.cfg = s.cfg := by
  rcases exec_cases h with ⟨ops, -, rfl⟩ | ⟨ops, -, -, rfl⟩ | ⟨ops, -, -, rfl⟩ | ⟨ops, -, -, rfl⟩ |
    ⟨ops, rd, a, b, -, -, rfl⟩ | ⟨ops, -, -, rfl⟩ | ⟨ops, -, rfl⟩ | ⟨ops, -, rfl⟩ | ⟨name, -, rfl⟩ <;> exact ⟨rfl, rfl⟩

/-- No step changes the Program or the parameters (R27; log 1). -/
theorem step_program_cfg {s t : State} (h : step s = .next t) : t.program = s.program ∧ t.cfg = s.cfg := by
  rcases step_cases h with ⟨-, rfl⟩ | ⟨-, slot, token, -, rfl⟩ | ⟨-, i, -, hexec⟩
  · exact ⟨rfl, rfl⟩
  · exact ⟨rfl, rfl⟩
  · exact exec_program_cfg hexec

/-! ## The run loop (R107) -/

/-- Every meaning ends in a next state: a fault of an instruction is recorded there (R116). -/
theorem exec_exists_next (i : Instr) (s : State) : ∃ t, exec i s = .next t := by
  cases i with
  | movi ops => exact ⟨_, exec_movi ops s⟩
  | load ops =>
    rcases Nat.lt_or_ge s.cfg.memSize (effectiveAddress s ops 1 + 8) with hb | hb
    · exact ⟨_, exec_load_outOfBounds hb⟩
    · exact ⟨_, exec_load_inBounds hb⟩
  | store ops =>
    rcases Nat.lt_or_ge s.cfg.memSize (effectiveAddress s ops 1 + 8) with hb | hb
    · exact ⟨_, exec_store_outOfBounds hb⟩
    · exact ⟨_, exec_store_inBounds hb⟩
  | add ops => exact ⟨_, exec_add ops s⟩
  | dec ops => exact ⟨_, exec_dec ops s⟩
  | bne ops =>
    cases hz : s.flags.z with
    | false => exact ⟨_, exec_bne_taken hz⟩
    | true => exact ⟨_, exec_bne_fallsThrough hz⟩
  | halt ops => exact ⟨_, exec_halt ops s⟩
  | labelDef name => exact ⟨_, exec_labelDef name s⟩
  | unrecognized ops => exact ⟨_, exec_unrecognized ops s⟩

theorem step_exists_next {s : State} (hrun : s.status = .running) : ∃ t, step s = .next t := by
  cases hdec : decode s.cfg s.line with
  | error slot token => exact ⟨_, by simp only [step, hrun, hdec]; rfl⟩
  | instr i => exact step_of_decode hrun hdec ▸ exec_exists_next i s

theorem runLoop_of_not_running (fuel : Nat) {s : State} (h : s.status ≠ .running) : runLoop fuel s = s := by
  cases fuel with
  | zero => rfl
  | succ fuel => cases hs : s.status <;> simp [runLoop, hs] at h ⊢

theorem runLoop_succ_of_next (fuel : Nat) {s t : State} (hrun : s.status = .running) (h : step s = .next t) :
    runLoop (fuel + 1) s = runLoop fuel t := by
  simp only [runLoop, hrun, h]

/-- What every step keeps, the run loop keeps. -/
theorem runLoop_keeps {P : State → Prop} (hstep : ∀ s t, P s → step s = .next t → P t) (fuel : Nat) {s : State}
    (h : P s) : P (runLoop fuel s) := by
  induction fuel generalizing s with
  | zero => exact h
  | succ fuel ih =>
    by_cases hrun : s.status = .running
    · obtain ⟨t, ht⟩ := step_exists_next hrun
      rw [runLoop_succ_of_next fuel hrun ht]
      exact ih (hstep s t h ht)
    · rwa [runLoop_of_not_running _ hrun]

/-- More fuel takes the loop on from the state where the fuel was spent. -/
theorem runLoop_add (fuel more : Nat) (s : State) : runLoop (fuel + more) s = runLoop more (runLoop fuel s) := by
  induction fuel generalizing s with
  | zero => rw [Nat.zero_add, runLoop]
  | succ fuel ih =>
    by_cases hrun : s.status = .running
    · obtain ⟨t, ht⟩ := step_exists_next hrun
      rw [Nat.add_right_comm, runLoop_succ_of_next _ hrun ht, runLoop_succ_of_next _ hrun ht, ih]
    · simp only [runLoop_of_not_running _ hrun]

theorem run_keeps_inv (fuel : Nat) {s : State} {program : List Text} (hinv : s.Inv) (hfits : programFits program) :
    (run fuel s program).Inv :=
  runLoop_keeps (fun _ _ => step_keeps_inv) fuel (hinv.runStart hfits)

/-- A run ends with the Program it was given and the parameters of its first state. -/
theorem run_program_cfg (fuel : Nat) (s : State) (program : List Text) :
    (run fuel s program).program = program ∧ (run fuel s program).cfg = s.cfg := by
  refine runLoop_keeps (P := fun u => u.program = program ∧ u.cfg = s.cfg) (fun u t hu ht => ?_) fuel ⟨rfl, rfl⟩
  obtain ⟨hprogram, hcfg⟩ := step_program_cfg ht
  exact ⟨hprogram.trans hu.1, hcfg.trans hu.2⟩

/-- Settles O52: the invariant and the Program pass along the run loop, the bound of `pc` is in the invariant, and more
fuel goes on from a state that the loop does not leave. -/
theorem runKeepsInvariantAndFinalState : Obligations.RunKeepsInvariantAndFinalState := by
  intro s program fuel hinv hfits
  have hend : (run fuel s program).Inv := run_keeps_inv fuel hinv hfits
  obtain ⟨hprogram, hcfg⟩ := run_program_cfg fuel s program
  refine ⟨hend, hend.pc_le.trans_lt hend.program_fits, hprogram, hcfg, fun hended more => ?_⟩
  calc run (fuel + more) s program = runLoop more (run fuel s program) := runLoop_add ..
    _ = run fuel s program := runLoop_of_not_running more hended

end Sys2Proof.Machine
end

section
/-! The statement about the host's transactions (70_reset_and_hazards.md). -/

namespace Sys2Proof.Machine

/-- A preload writes its byte where the address exists, so memory stays within its capacity, and writes nothing past it
(R137; log 27). -/
theorem State.Inv.preload {s : State} (h : s.Inv) (a : Nat) (b : Byte) : (s.preload a b).Inv := by
  by_cases ha : a < s.cfg.memSize
  · rw [State.preload, if_pos ha]
    exact { h with
      mem_wf := Memory.write_wf a b h.mem_wf
      mem_within := Memory.write_within b h.mem_within ha }
  · rwa [State.preload, if_neg ha]

/-- Settles O49: run start by `State.Inv.runStart`, whose Program brings its own bound, and preload by the two cases of
its address. -/
theorem hostTransactionsKeepTheInvariant : Obligations.HostTransactionsKeepTheInvariant := fun _ hinv =>
  ⟨fun _ hfits => hinv.runStart hfits, hinv.preload⟩

end Sys2Proof.Machine
end

section
/-! The statements about the Decoder (30_encoding.md) that remain: decoding what the encoder wrote, which lines fail to
decode, numerals, tokens as pieces between separators, and words of the opcode table. -/

namespace Sys2Proof

/-! ## Decoding the canonical line (R67, R70) -/

/-- The tokens the encoder puts first are separator-free, end in no colon and are upper case. -/
theorem opcodeToken_spec : ∀ m ∈ tokNop :: mnemonics,
    m ≠ [] ∧ (∀ b ∈ m, isWs b = false) ∧ m.getLast? ≠ some 0x3A#8 ∧ upper m = m := by decide

/-- The line of an opcode token and encoded operands decodes to what the opcode test answers on the two. -/
theorem decode_encoded_operation {cfg : Config} {m : Text} {ops : List Operand} (hm : m ∈ tokNop :: mnemonics)
    (h : operandsWf cfg ops = true) : decode cfg (m ++ encodeOperands ops) = .instr (recognize cfg m ops) := by
  obtain ⟨hne, hfree, hcolon, hupper⟩ := opcodeToken_spec m hm
  have hwf := Laws.EncodedLabel.operands_wf h
  have hlen : ops.length ≤ 3 := by
    simp only [operandsWf, Bool.and_eq_true, decide_eq_true_eq] at h
    exact h.1
  obtain ⟨⟨ts, hts⟩, hlabel, hafter⟩ := mnemonic_line hne hfree hcolon hwf
  have htokens : operandTokens (m ++ encodeOperands ops) = ops.map encodeOperand := by
    rw [operandTokens, hafter, tokens_encodeOperands hwf, List.take_of_length_le (by simpa using hlen)]
  have hops : (operandTokens (m ++ encodeOperands ops)).map (classify cfg) = ops.map some := by
    rw [htokens]
    exact classifyFrom_eq_ok.mp (classifyFrom_map 0 hwf)
  rw [decode_of_operands hlabel hts hops, hupper]

/-- Settles O2: an Operation's line has its opcode token and its operands' tokens (`decode_encoded_operation`), on which
the opcode test answers the Operation; a label's line is the Label Definition of its name. -/
theorem decodeOfEncodeIsIdentity : Obligations.DecodeOfEncodeIsIdentity := by
  intro cfg i h
  cases i with
  | movi ops => exact decode_encoded_operation (by decide) h
  | load ops => exact decode_encoded_operation (by decide) h
  | store ops =>
    obtain ⟨hhas, hops⟩ := Bool.and_eq_true_iff.mp h
    rw [encode, decode_encoded_operation (by decide) hops, recognize_store, if_pos hhas]
  | add ops => exact decode_encoded_operation (by decide) h
  | dec ops => exact decode_encoded_operation (by decide) h
  | bne ops => exact decode_encoded_operation (by decide) h
  | halt ops => exact decode_encoded_operation (by decide) h
  | labelDef name => exact decode_of_label (labelName_encode_label (by simpa [Instr.wf] using h))
  | unrecognized ops =>
    rw [encode, decode_encoded_operation (by decide) h, recognize_unrecognized (by decide)]

/-! ## Lines that do not decode (R64) -/

/-- `token` is the leftmost Malformed one of a list of operand tokens, and stands at `slot`. -/
def IsLeftmostMalformed (cfg : Config) (ts : List Text) (slot : Nat) (token : Text) : Prop :=
  ts[slot]? = some token ∧ classify cfg token = none ∧
    ∀ k < slot, ∀ u, ts[k]? = some u → (classify cfg u).isSome = true

theorem isLeftmostMalformed_cons_zero {cfg : Config} {t token : Text} {ts : List Text} :
    IsLeftmostMalformed cfg (t :: ts) 0 token ↔ t = token ∧ classify cfg token = none := by
  simp [IsLeftmostMalformed]

theorem isLeftmostMalformed_cons_succ {cfg : Config} {t token : Text} {ts : List Text} {slot : Nat} :
    IsLeftmostMalformed cfg (t :: ts) (slot + 1) token ↔
      (classify cfg t).isSome = true ∧ IsLeftmostMalformed cfg ts slot token := by
  simp only [IsLeftmostMalformed, List.getElem?_cons_succ]
  constructor
  · rintro ⟨hslot, hbad, hbefore⟩
    exact ⟨hbefore 0 (Nat.succ_pos _) t rfl, hslot, hbad, fun k hk => hbefore (k + 1) (by omega)⟩
  · rintro ⟨ht, hslot, hbad, hbefore⟩
    refine ⟨hslot, hbad, fun k hk u hu => ?_⟩
    cases k with
    | zero =>
      obtain rfl : t = u := by simpa using hu
      exact ht
    | succ k => exact hbefore k (by omega) u hu

/-- Classification fails with the leftmost Malformed token, its slot counted on from the first one (R64). -/
theorem classifyFrom_eq_error {cfg : Config} {j slot : Nat} {ts : List Text} {token : Text} :
    classifyFrom cfg j ts = .error (slot, token) ↔ ∃ k, slot = j + k ∧ IsLeftmostMalformed cfg ts k token := by
  induction ts generalizing j with
  | nil => simp [classifyFrom, IsLeftmostMalformed]
  | cons t ts ih =>
    rw [← Nat.or_exists_add_one, isLeftmostMalformed_cons_zero]
    simp only [isLeftmostMalformed_cons_succ]
    cases hc : classify cfg t with
    | none =>
      simp only [classifyFrom, hc, Except.error.injEq, Prod.mk.injEq, Option.isSome_none, Bool.false_eq_true, false_and,
        and_false, exists_false, or_false, Nat.add_zero]
      constructor
      · rintro ⟨rfl, rfl⟩
        exact ⟨rfl, rfl, hc⟩
      · rintro ⟨rfl, rfl, -⟩
        exact ⟨rfl, rfl⟩
    | some c =>
      have hhead : ¬ (t = token ∧ classify cfg token = none) := by
        rintro ⟨rfl, hbad⟩
        simp [hc] at hbad
      have hrest : classifyFrom cfg j (t :: ts) = .error (slot, token) ↔
          classifyFrom cfg (j + 1) ts = .error (slot, token) := by
        cases hr : classifyFrom cfg (j + 1) ts <;> simp [classifyFrom, hc, hr]
      simp only [hrest, ih, hhead, and_false, false_or, Option.isSome_some, true_and, Nat.add_assoc, Nat.add_comm 1]

/-- A line that is no Label Definition fails to decode exactly when the classification of its operand tokens fails. -/
theorem decodeOperation_eq_error {cfg : Config} {line token : Text} {slot : Nat} :
    decodeOperation cfg line = .error slot token ↔ classifyFrom cfg 0 (operandTokens line) = .error (slot, token) := by
  cases hw : tokens isWs line with
  | nil =>
    have hnone : operandTokens line = [] := by rw [operandTokens, afterOpcode_eq_nil hw]; rfl
    simp [decodeOperation, hw, hnone, classifyFrom]
  | cons w ws => cases hc : classifyFrom cfg 0 (operandTokens line) <;> simp [decodeOperation, hw, hc, Prod.ext_iff]

/-- Settles O4: a Label Definition decodes, and for every other line the failure is that of `classifyFrom`, which
`classifyFrom_eq_error` describes. -/
theorem decodeErrorIsLeftmostMalformed : Obligations.DecodeErrorIsLeftmostMalformed := by
  intro cfg line slot token
  cases hlabel : labelName line with
  | some name => simp [decode_of_label hlabel]
  | none =>
    rw [decode_of_not_label hlabel, decodeOperation_eq_error, classifyFrom_eq_error]
    simp [IsLeftmostMalformed]

/-! ## Numerals (R61 to R63) -/

theorem decVal_zeros_append (k : Nat) (d : Text) : decVal (List.replicate k 0x30#8 ++ d) = decVal d := by
  induction k with
  | zero => rfl
  | succ k ih => exact ih

/-- The numeral of a number with `k` leading zeros. -/
def paddedNumeral (k n : Nat) : Text := List.replicate k 0x30#8 ++ decText n

@[simp] theorem decVal_paddedNumeral (k n : Nat) : decVal (paddedNumeral k n) = n := by
  rw [paddedNumeral, decVal_zeros_append, decVal_decText]

theorem paddedNumeral_ne_nil (k n : Nat) : paddedNumeral k n ≠ [] := by simp [paddedNumeral, decText_ne_nil]

theorem paddedNumeral_digits (k n : Nat) : ∀ b ∈ paddedNumeral k n, isDigit b = true := by
  intro b hb
  rcases List.mem_append.mp hb with hb | hb
  · rw [List.eq_of_mem_replicate hb]
    decide
  · exact decText_digits n b hb

theorem paddedNumeral_all (k n : Nat) : (paddedNumeral k n).all isDigit = true :=
  List.all_eq_true.mpr (paddedNumeral_digits k n)

theorem parseU64_paddedNumeral (k n : Nat) :
    parseU64 (paddedNumeral k n) = if n < 2 ^ 64 then some (BitVec.ofNat 64 n) else none := by
  simp [parseU64, paddedNumeral_ne_nil, paddedNumeral_all]

theorem isRegShape_paddedNumeral (k n : Nat) : isRegShape (0x72#8 :: paddedNumeral k n) = true :=
  isRegShape_iff.mpr ⟨_, rfl, paddedNumeral_ne_nil k n, paddedNumeral_digits k n⟩

theorem parseReg_paddedNumeral (cfg : Config) (k n : Nat) :
    parseReg cfg (0x72#8 :: paddedNumeral k n) = if n < cfg.numRegs then some n else none := by
  simp [parseReg, isRegShape_paddedNumeral]

/-- A memory token with an offset is read from its two parts, where the first `+` separates them (R63). -/
theorem classifyMemory_offset {cfg : Config} {r : Text} (o : Text) (hr : ∀ b ∈ r, (b != 0x2B#8) = true) :
    classifyMemory cfg (r ++ 0x2B#8 :: (o ++ [0x5D#8])) =
      (parseReg cfg r).bind fun base => (parseU64 o).map (.mem base) := by
  have hlast : r ++ 0x2B#8 :: (o ++ [0x5D#8]) = (r ++ 0x2B#8 :: o) ++ [0x5D#8] := by simp
  have hdrop : (r ++ 0x2B#8 :: o).dropWhile (· != 0x2B#8) = 0x2B#8 :: o := by simp [dropWhile_run _ hr]
  rw [classifyMemory, hlast, List.getLast?_concat, if_pos rfl, List.dropLast_concat, takeWhile_run o hr (by decide),
    hdrop, parseOffset]
  cases parseReg cfg r <;> cases parseU64 o <;> rfl

/-- Settles O6: leading zeros change neither the digits nor the value of a numeral, so each of the two parsers answers
by its bound alone. -/
theorem numeralsReadInBaseTen : Obligations.NumeralsReadInBaseTen := by
  intro cfg k l n b
  have hfree : ∀ c ∈ 0x72#8 :: paddedNumeral k b, (c != 0x2B#8) = true := by
    intro c hc
    rcases List.mem_cons.mp hc with rfl | hc
    · decide
    · exact ne_plus_of_isDigit (paddedNumeral_digits k b c hc)
  refine ⟨?_, ?_, ?_⟩
  · change classify cfg (0x23#8 :: paddedNumeral k n) = _
    rw [classify_hash, parseU64_paddedNumeral]
    split <;> rfl
  · change classify cfg (0x72#8 :: paddedNumeral k n) = _
    rw [classify_other (by simp) (by simp) (by simp), if_pos (isRegShape_paddedNumeral k n), parseReg_paddedNumeral]
    split <;> rfl
  · change classify cfg (0x5B#8 :: (0x72#8 :: paddedNumeral k b ++ 0x2B#8 :: (paddedNumeral l n ++ [0x5D#8]))) = _
    rw [classify_bracket, classifyMemory_offset _ hfree, parseReg_paddedNumeral, parseU64_paddedNumeral]
    by_cases hb : b < cfg.numRegs
    · split <;> simp [*]
    · simp [hb]

/-! ## Tokens as pieces (R52, second form) -/

/-- A byte put in front of the first piece joins the token that starts there, or makes one where none does. -/
theorem nonEmptyPieces_cons {sep : Byte → Bool} {b : Byte} (s : Text) (hb : sep b = false) :
    ((b :: s).splitOnP sep).filter (fun t => !t.isEmpty) =
      if startsToken sep s then consToken b ((s.splitOnP sep).filter fun t => !t.isEmpty)
      else [b] :: (s.splitOnP sep).filter fun t => !t.isEmpty := by
  rw [List.splitOnP_cons_eq_if_modifyHead, if_neg (by simp [hb])]
  cases s with
  | nil => simp [startsToken, List.splitOnP_nil]
  | cons c s =>
    rw [List.splitOnP_cons_eq_if_modifyHead]
    cases hc : sep c with
    | true => simp [startsToken, hc]
    | false =>
      obtain ⟨p, ps, hps⟩ := List.exists_cons_of_ne_nil (List.splitOnP_ne_nil sep s)
      simp [startsToken, hc, hps, consToken]

/-- Settles O9, by induction on the text: a separator adds an empty piece, and another byte goes in front of the first
piece. -/
theorem tokensAreTheNonEmptyPieces : Obligations.TokensAreTheNonEmptyPieces := by
  intro sep s
  induction s with
  | nil => simp [tokens, List.splitOnP_nil]
  | cons b s ih =>
    cases hb : sep b with
    | true => simp [tokens_sep s hb, ih, List.splitOnP_cons_eq_if_modifyHead, hb]
    | false => rw [nonEmptyPieces_cons s hb, ← ih, tokens, if_neg (by simp [hb])]

/-! ## Words of the opcode table (R74; log 3 to 5) -/

theorem classify_congr_numRegs {cfg cfg' : Config} (h : cfg'.numRegs = cfg.numRegs) : classify cfg' = classify cfg := by
  have hreg : parseReg cfg' = parseReg cfg := by
    funext t
    rw [parseReg, parseReg, h]
  funext t
  cases t <;> simp only [classify, classifyMemory, hreg]

/-- The opcode test reads `HAS_STORE` for STORE alone (R57). -/
theorem recognize_of_not_store {cfg : Config} (cfg' : Config) {u : Text} {ops : List Operand}
    (h : recognize cfg u ops ≠ .store ops) (hhas : cfg.hasStore = true) :
    recognize cfg' u ops = recognize cfg u ops := by
  have hu : u ≠ tokStore := by
    rintro rfl
    exact h (by rw [recognize_store, if_pos hhas])
  simp [recognize, hu]

/-- `HAS_STORE` matters to no line but a STORE. -/
theorem decode_of_not_store {cfg cfg' : Config} {line : Text} {i : Instr} (hregs : cfg'.numRegs = cfg.numRegs)
    (hhas : cfg.hasStore = true) (hstore : ∀ ops, i ≠ .store ops) (h : decode cfg line = .instr i) :
    decode cfg' line = .instr i := by
  rcases decode_instr_cases h with ⟨name, hname, rfl⟩ | ⟨hblank, rfl⟩ | ⟨w, ws, ops, hw, hops, rfl⟩
  · exact decode_of_label hname
  · exact decode_of_tokens_nil hblank
  · cases hlabel : labelName line with
    | some name =>
      rw [decode_of_label hlabel] at h ⊢
      exact h
    | none =>
      rw [decode_of_operands hlabel hw (classify_congr_numRegs hregs ▸ hops),
        recognize_of_not_store cfg' (hstore ops) hhas]

end Sys2Proof

namespace Sys2Proof.Machine

/-- A word of the table is an instruction exactly when its line is one on the machine with every row. -/
theorem decodeTableWord_eq_some {nbits w : Nat} {i : Instr} :
    decodeTableWord nbits w = some i ↔ decode Config.fullTable (tableLine nbits w) = .instr i := by
  cases h : decode Config.fullTable (tableLine nbits w) <;> simp [decodeTableWord, h]

theorem isTableStore_of_store {nbits w : Nat} {ops : List Operand} (h : decodeTableWord nbits w = some (.store ops)) :
    isTableStore nbits w = true := by
  simp [isTableStore, h]

/-- A table word reads the same on the machine that `withFetchWord` makes of the reset state. -/
theorem decode_withFetchWord_reset {nbits w : Nat} {i : Instr} (h : decodeTableWord nbits w = some i) :
    decode (State.reset.withFetchWord nbits w).cfg (tableLine nbits w) = .instr i := by
  have hdec := decodeTableWord_eq_some.mp h
  by_cases hstore : ∃ ops, i = .store ops
  · obtain ⟨ops, rfl⟩ := hstore
    have hcfg : (State.reset.withFetchWord nbits w).cfg = Config.fullTable := by
      simp only [State.withFetchWord, isTableStore_of_store h]
      rfl
    rw [hcfg, hdec]
  · exact decode_of_not_store (cfg := Config.fullTable) rfl rfl (fun ops hi => hstore ⟨ops, hi⟩) hdec

/-- Settles O11: the placed line stands at `pc` of a Running state and decodes to the word's instruction. -/
theorem tableWordRunsAfterReset : Obligations.TableWordRunsAfterReset := by
  intro nbits w i h
  have hrun : (State.reset.withFetchWord nbits w).status = .running := rfl
  exact step_of_decode hrun (decode_withFetchWord_reset h)

end Sys2Proof.Machine
end

section
/-! The statements about labels (45_controller.md), the data of memory (20_memory.md) and the flag function
(40_execution_common.md) that remain. -/

namespace Sys2Proof.Machine

/-! ## Unique labels (R104, R112) -/

/-- Under UniqueLabels no two lines define the same name. -/
theorem uniqueLabels_index_eq {program : List Text} {line line' s : Text} {i j : Nat}
    (h : uniqueLabels program = true) (hi : program[i]? = some line) (hj : program[j]? = some line')
    (hline : labelName line = some s) (hline' : labelName line' = some s) : i = j := by
  have hpair := List.pairwise_iff_getElem.mp (List.pairwise_filterMap.mp (of_decide_eq_true h))
  obtain ⟨hilt, rfl⟩ := List.getElem?_eq_some_iff.mp hi
  obtain ⟨hjlt, rfl⟩ := List.getElem?_eq_some_iff.mp hj
  rcases Nat.lt_trichotomy i j with hlt | heq | hlt
  · exact absurd rfl (hpair i j hilt hjlt hlt s hline s hline')
  · exact heq
  · exact absurd rfl (hpair j i hjlt hilt hlt s hline' s hline)

/-- Settles O14: the only line that defines a name is the last one that does, which the label map holds. -/
theorem uniqueLabelsResolveToTheirLine : Obligations.UniqueLabelsResolveToTheirLine := by
  intro program s line i hunique hi hline
  have hlast : labelIndex? (resolve program) s = some i :=
    (resolverKeepsTheLastDefinition program s i).mpr ⟨⟨line, hi, hline⟩, fun j line' hlt hj hline' =>
      Nat.ne_of_lt hlt (uniqueLabels_index_eq hunique hi hj hline hline')⟩
  exact lookup_of_some hlast

/-! ## Canonical memories (R25) -/

theorem Memory.wf_cons {c : Nat} {d : Byte} {m : Memory} :
    Memory.wf ((c, d) :: m) = true ↔ d ≠ Memory.resetByte ∧ Memory.wfFrom (some c) m = true := by
  simp [Memory.wf, Memory.wfFrom]

/-- A canonical memory reads as the reset byte below its first cell. -/
theorem Memory.read_before_first {c a : Nat} {d : Byte} {m : Memory} (h : Memory.wf ((c, d) :: m) = true) (ha : a < c) :
    Memory.read ((c, d) :: m) a = Memory.resetByte := by
  rw [Memory.read, if_neg ha.ne, Memory.read_below (Memory.wf_cons.mp h).2 ha.le]

theorem Memory.read_first (c : Nat) (d : Byte) (m : Memory) : Memory.read ((c, d) :: m) c = d := by
  rw [Memory.read, if_pos rfl]

/-- The first cell of a canonical memory is not past that of another one that reads the same. -/
theorem Memory.first_le_of_read_eq {c c' : Nat} {d d' : Byte} {m m' : Memory} (h : Memory.wf ((c, d) :: m) = true)
    (h' : Memory.wf ((c', d') :: m') = true)
    (hread : ∀ a, Memory.read ((c, d) :: m) a = Memory.read ((c', d') :: m') a) : c ≤ c' := by
  refine Nat.le_of_not_lt fun hlt => (Memory.wf_cons.mp h').1 ?_
  rw [← Memory.read_first c' d' m', ← hread, Memory.read_before_first h hlt]

/-- A canonical memory with a cell does not read as the empty one. -/
theorem Memory.exists_read_ne_resetByte {c : Nat} {d : Byte} {m : Memory} (h : Memory.wf ((c, d) :: m) = true) :
    ∃ a, Memory.read ((c, d) :: m) a ≠ Memory.resetByte :=
  ⟨c, by rw [Memory.read_first]; exact (Memory.wf_cons.mp h).1⟩

/-- What follows equal first cells reads the same, at the first address too: there both rests are still unset. -/
theorem Memory.read_tail_eq {c : Nat} {d : Byte} {m m' : Memory} (h : Memory.wf ((c, d) :: m) = true)
    (h' : Memory.wf ((c, d) :: m') = true)
    (hread : ∀ a, Memory.read ((c, d) :: m) a = Memory.read ((c, d) :: m') a) (a : Nat) :
    Memory.read m a = Memory.read m' a := by
  by_cases ha : a = c
  · subst ha
    rw [Memory.read_below (Memory.wf_cons.mp h).2 le_rfl, Memory.read_below (Memory.wf_cons.mp h').2 le_rfl]
  · simpa only [Memory.read, if_neg ha] using hread a

/-- Settles O17, by induction on the cells of both: the first cells have one address, hence one byte, and what follows
them reads the same. -/
theorem canonicalMemoryIsDeterminedByItsBytes : Obligations.CanonicalMemoryIsDeterminedByItsBytes := by
  intro m
  induction m with
  | nil =>
    intro m' _ hwf' hread
    cases m' with
    | nil => rfl
    | cons cell' m' =>
      obtain ⟨a, ha⟩ := Memory.exists_read_ne_resetByte hwf'
      exact absurd (hread a).symm ha
  | cons cell m ih =>
    intro m' hwf hwf' hread
    obtain ⟨c, d⟩ := cell
    cases m' with
    | nil =>
      obtain ⟨a, ha⟩ := Memory.exists_read_ne_resetByte hwf
      exact absurd (hread a) ha
    | cons cell' m' =>
      obtain ⟨c', d'⟩ := cell'
      obtain rfl : c = c' := Nat.le_antisymm (Memory.first_le_of_read_eq hwf hwf' hread)
        (Memory.first_le_of_read_eq hwf' hwf fun a => (hread a).symm)
      obtain rfl : d = d' := by simpa only [Memory.read_first] using hread c
      rw [ih m' (Memory.wfFrom_weaken (Memory.wf_cons.mp hwf).2) (Memory.wfFrom_weaken (Memory.wf_cons.mp hwf').2)
        (Memory.read_tail_eq hwf hwf' hread)]

/-! ## The flag function (R82, R93) -/

/-- V is the library's signed overflow of the two addends. -/
theorem addFlags_v_eq_saddOverflow (a b : Word) : (addFlags a b).2.v = a.saddOverflow b := by
  rw [addFlags_flags, BitVec.saddOverflow_eq]
  rfl

theorem addFlags_comm (a b : Word) : addFlags a b = addFlags b a := by
  refine Prod.ext (by rw [addFlags_sum, addFlags_sum, BitVec.add_comm]) ?_
  have hv : (addFlags a b).2.v = (addFlags b a).2.v := by
    simp only [addFlags_v_eq_saddOverflow, BitVec.saddOverflow, Int.add_comm]
  simp only [addFlags_flags, Flags.mk.injEq] at hv ⊢
  exact ⟨by rw [BitVec.add_comm], by rw [BitVec.add_comm], by rw [Nat.add_comm], hv⟩

/-- Settles O18: V is `BitVec.saddOverflow`, which asks whether the signed sum leaves the range and without which that
sum is the wrapped one. -/
theorem overflowFlagIsSignedOverflow : Obligations.OverflowFlagIsSignedOverflow := by
  intro a b
  refine ⟨?_, fun hv => ?_, addFlags_comm a b⟩
  · rw [addFlags_v_eq_saddOverflow, BitVec.saddOverflow, Bool.or_eq_true, decide_eq_true_eq, decide_eq_true_eq, or_comm]
  · rw [addFlags_sum]
    exact BitVec.toInt_add_of_not_saddOverflow (by rw [← addFlags_v_eq_saddOverflow, hv]; simp)

end Sys2Proof.Machine
end

section
/-! The statements about the instructions one by one (41_move.md to 44_control.md) that remain: result, completion and
frame. -/

namespace Sys2Proof.Machine

/-! ## Frames -/

section Frames

variable {s t : State}

/-- The frame of a state whose registers are those before, but one. -/
theorem regsUnchangedExcept_of_set {i : Nat} {w : Word} (hx : t.x = s.x.set i w) (hv : t.v = s.v) (hcfg : t.cfg = s.cfg)
    (hprogram : t.program = s.program) : RegsUnchangedExcept s t [i] := by
  refine ⟨fun r hr => ?_, by rw [hx, List.length_set], hv, hcfg, hprogram⟩
  calc t.readReg r = (s.writeReg i w).readReg r := by rw [State.readReg, hx]; rfl
    _ = s.readReg r := State.readReg_writeReg_ne s w (by simpa using hr)

/-- The frame of a state whose registers are those before. -/
theorem regsUnchangedExcept_of_eq (hx : t.x = s.x) (hv : t.v = s.v) (hcfg : t.cfg = s.cfg)
    (hprogram : t.program = s.program) : RegsUnchangedExcept s t [] :=
  ⟨fun r _ => by rw [State.readReg, hx, State.readReg], congrArg List.length hx, hv, hcfg, hprogram⟩

theorem memUnchanged_of_eq (h : t.mem = s.mem) : MemUnchanged s t := fun _ => by rw [h]

end Frames

/-- The register of a slot of a well-formed Operation is in the register file. -/
theorem regSlot_lt_length {s : State} {ops : List Operand} (j : Nat) (hinv : s.Inv)
    (hwf : operandsWf s.cfg ops = true) : regSlot ops j < s.x.length :=
  hinv.regs_length ▸ regSlot_lt j hinv.cfg_wf hwf

/-- What a MOVI or LOAD ends in: one register written, `pc` advanced, nothing else but the log. -/
theorem writeReg_advance_frame (s : State) {i : Nat} (w : Word) (hi : i < s.x.length) :
    let t := (s.dispatched.writeReg i w).apply .advance
    t.readReg i = w ∧ t.pc = s.pc + 1 ∧ t.flags = s.flags ∧ RegsUnchangedExcept s t [i] ∧ MemUnchanged s t ∧
      RunUnchanged s t :=
  ⟨State.readReg_writeReg_self s.dispatched w hi, rfl, rfl, regsUnchangedExcept_of_set rfl rfl rfl rfl,
    memUnchanged_of_eq rfl, rfl, rfl⟩

/-- What an ADD or DEC ends in: one register and the flags written, `pc` advanced, nothing else but the log. -/
theorem writeReg_writeFlags_advance_frame (s : State) {i : Nat} (w : Word) (f : Flags) (hi : i < s.x.length) :
    let t := ((s.dispatched.writeReg i w).writeFlags f).apply .advance
    t.readReg i = w ∧ t.flags = f ∧ t.pc = s.pc + 1 ∧ RegsUnchangedExcept s t [i] ∧ MemUnchanged s t ∧
      RunUnchanged s t :=
  ⟨State.readReg_writeReg_self s.dispatched w hi, rfl, rfl, regsUnchangedExcept_of_set rfl rfl rfl rfl,
    memUnchanged_of_eq rfl, rfl, rfl⟩

/-! ## MOVI, LOAD and STORE (R87 to R90) -/

/-- Settles O19: the one next state of a MOVI, whose register exists. -/
theorem moviWritesItsRegister : Obligations.MoviWritesItsRegister := fun s ops hinv hwf =>
  ⟨_, exec_movi ops s, writeReg_advance_frame s _ (regSlot_lt_length 0 hinv hwf)⟩

/-- Settles O20: the one next state of a LOAD within bounds, whose register holds the word read, the sum of R38. -/
theorem loadReadsEightBytes : Obligations.LoadReadsEightBytes := by
  intro s ops hinv hwf hb
  obtain ⟨hread, hframe⟩ := writeReg_advance_frame s (s.mem.readWord (effectiveAddress s ops 1))
    (regSlot_lt_length 0 hinv hwf)
  exact ⟨_, exec_load_inBounds hb, by rw [hread, memReadIsLittleEndianSum], hframe⟩

/-- Settles O21: the one next state of a STORE within bounds, whose memory `Memory.read_writeWord` reads. -/
theorem storeWritesEightBytes : Obligations.StoreWritesEightBytes := fun _ _ hinv _ hb =>
  ⟨_, exec_store_inBounds hb, fun a => Memory.read_writeWord _ _ a hinv.mem_wf, rfl, rfl,
    regsUnchangedExcept_of_eq rfl rfl rfl rfl, rfl, rfl⟩

/-- Settles O22: out of bounds LOAD and STORE end alike, in the dispatched state with the fault recorded. -/
theorem outOfBoundsAccessFaults : Obligations.OutOfBoundsAccessFaults := by
  intro s ops i hi hb
  have hexec : exec i s = .next (s.dispatched.raise (.outOfBoundsMemory s.pc (effectiveAddress s ops 1))) := by
    rcases hi with rfl | rfl
    · exact exec_load_outOfBounds hb
    · exact exec_store_outOfBounds hb
  exact ⟨_, hexec, rfl, rfl, rfl, rfl, regsUnchangedExcept_of_eq rfl rfl rfl rfl, memUnchanged_of_eq rfl⟩

/-! ## ADD and DEC (R82, R91, R92) -/

theorem addFlags_z_iff (a b : Word) : (addFlags a b).2.z = true ↔ a + b = 0#64 := by
  rw [addFlags_flags, beq_iff_eq]

theorem addFlags_n_eq (a b : Word) : (addFlags a b).2.n = (a + b).msb := by rw [addFlags_flags]

theorem addFlags_c_iff (a b : Word) : (addFlags a b).2.c = true ↔ 2 ^ 64 ≤ a.toNat + b.toNat := by
  rw [addFlags_flags, decide_eq_true_eq]

theorem addFlags_v_iff (a b : Word) :
    (addFlags a b).2.v = true ↔ a.getLsbD 63 = b.getLsbD 63 ∧ (a + b).getLsbD 63 ≠ a.getLsbD 63 := by
  rw [addFlags_flags, Bool.and_eq_true, beq_iff_eq, bne_iff_ne]
  rfl

/-- Settles O24: the one next state of an ADD, and the flags of `AddFlags` as conditions on the exact sum. -/
theorem addWritesSumAndFlags : Obligations.AddWritesSumAndFlags := by
  rintro s ops a b hinv hwf rfl rfl
  obtain ⟨hread, hflags, hframe⟩ := writeReg_writeFlags_advance_frame s
    (s.readReg (regSlot ops 1) + valSlot s ops 2) (addFlags (s.readReg (regSlot ops 1)) (valSlot s ops 2)).2
    (regSlot_lt_length 0 hinv hwf)
  refine ⟨_, exec_add ops s, by rw [hread, BitVec.toNat_add], ?_, ?_, ?_, ?_, hframe⟩ <;> rw [hflags]
  · rw [addFlags_z_iff, ← BitVec.toNat_inj, BitVec.toNat_add]
    rfl
  · rw [addFlags_n_eq, BitVec.msb_eq_decide, decide_eq_true_eq, BitVec.toNat_add]
  · exact addFlags_c_iff _ _
  · exact addFlags_v_iff _ _

theorem add_allOnes_eq_sub_one (a : Word) : a + BitVec.allOnes 64 = a - 1#64 := by
  rw [BitVec.sub_eq_add_neg, BitVec.neg_one_eq_allOnes]

/-- Adding `2^64 - 1` carries out of every number but 0. -/
theorem addFlags_allOnes_c_iff (a : Word) : (addFlags a (BitVec.allOnes 64)).2.c = true ↔ a ≠ 0#64 := by
  have h := a.isLt
  rw [addFlags_c_iff, ne_eq, ← BitVec.toNat_inj, BitVec.toNat_allOnes, BitVec.toNat_ofNat]
  omega

/-- Adding -1 overflows at the most negative number alone. -/
theorem addFlags_allOnes_v_iff (a : Word) :
    (addFlags a (BitVec.allOnes 64)).2.v = true ↔ a = 0x8000000000000000#64 := by
  have hlow : -2 ^ 63 ≤ a.toInt := BitVec.le_toInt a
  have hhigh : a.toInt < 2 ^ 63 := BitVec.toInt_lt
  have hones : (BitVec.allOnes 64).toInt = -1 := by decide
  have hmin : (0x8000000000000000#64).toInt = -2 ^ 63 := by decide
  rw [(overflowFlagIsSignedOverflow a (BitVec.allOnes 64)).1, hones, ← BitVec.toInt_inj, hmin]
  omega

/-- Settles O25: a DEC adds `2^64 - 1`, which is subtracting 1 modulo `2^64`, and takes the flags of that sum. -/
theorem decDecrementsAndSetsFlags : Obligations.DecDecrementsAndSetsFlags := by
  rintro s ops a hinv hwf rfl
  obtain ⟨hread, hflags, hframe⟩ := writeReg_writeFlags_advance_frame s
    (s.readReg (regSlot ops 0) + BitVec.allOnes 64) (addFlags (s.readReg (regSlot ops 0)) (BitVec.allOnes 64)).2
    (regSlot_lt_length 0 hinv hwf)
  refine ⟨_, exec_dec ops s, by rw [hread, add_allOnes_eq_sub_one], ?_, ?_, ?_, ?_, hframe⟩ <;> rw [hflags]
  · rw [addFlags_z_iff, add_allOnes_eq_sub_one, BitVec.sub_eq_iff_eq_add, BitVec.zero_add]
  · rw [addFlags_n_eq, add_allOnes_eq_sub_one]
    rfl
  · exact addFlags_allOnes_c_iff _
  · exact addFlags_allOnes_v_iff _

/-! ## Control (R96 to R98) -/

/-- What an instruction without a result ends in: `pc` set, to the next line too, and nothing else but the log. -/
theorem dispatched_jump_frame (s : State) (target : Nat) :
    let t := s.dispatched.apply (.jump target)
    t.pc = target ∧ t.flags = s.flags ∧ RegsUnchangedExcept s t [] ∧ MemUnchanged s t ∧ RunUnchanged s t :=
  ⟨rfl, rfl, regsUnchangedExcept_of_eq rfl rfl rfl rfl, memUnchanged_of_eq rfl, rfl, rfl⟩

/-- Settles O26, by the two values of Z: the jump goes to the looked-up line, falling through to the next one. -/
theorem bneBranchesWhenZIsClear : Obligations.BneBranchesWhenZIsClear := by
  intro s ops
  cases hz : s.flags.z with
  | false =>
    obtain ⟨hpc, hframe⟩ := dispatched_jump_frame s (lookup (resolve s.program) (nameSlot ops 0))
    exact ⟨_, exec_bne_taken hz, fun _ => hpc, by simp, hframe⟩
  | true =>
    obtain ⟨hpc, hframe⟩ := dispatched_jump_frame s (s.pc + 1)
    exact ⟨_, exec_bne_fallsThrough hz, by simp, fun _ => hpc, hframe⟩

/-- Settles O27: the one next state of a HALT differs from the dispatched one in `halted` alone. -/
theorem haltStopsWithPcUnchanged : Obligations.HaltStopsWithPcUnchanged := fun s ops =>
  ⟨_, exec_halt ops s, rfl, rfl, rfl, rfl, regsUnchangedExcept_of_eq rfl rfl rfl rfl, memUnchanged_of_eq rfl⟩

/-- Settles O28: the one next state of an unrecognized opcode is the dispatched one at the next line. -/
theorem unrecognizedOpcodeIsANoOp : Obligations.UnrecognizedOpcodeIsANoOp := fun s ops =>
  ⟨_, exec_unrecognized ops s, dispatched_jump_frame s (s.pc + 1)⟩

end Sys2Proof.Machine
end

section
/-! The statements about the Controller (45_controller.md, 60_exceptions.md) that remain: what a step answers, and what
it does to `pc`, the log, memory, the status and `fault`. -/

namespace Sys2Proof.Machine

/-- Settles O48: an ended run stays, a line that does not decode records a precise fault, and each form of `exec` keeps
the invariant (`step_keeps_inv`). -/
theorem stepKeepsTheInvariant : Obligations.StepKeepsTheInvariant := fun _ _ => step_keeps_inv

/-! ## What a step answers (R105, R106, R116) -/

theorem State.line_of_getElem? {s : State} {line : Text} (h : s.program[s.pc]? = some line) : s.line = line := by
  rw [State.line, List.getD_eq_getElem?_getD, h, Option.getD_some]

/-- A Running state fetches a line of its Program. -/
theorem State.line_mem_program {s : State} (hrun : s.status = .running) : s.line ∈ s.program := by
  obtain ⟨-, -, hpc⟩ := s.status_running.mp hrun
  rw [State.line, List.getD_eq_getElem _ _ hpc]
  exact List.getElem_mem hpc

/-- Settles O33: the line at `pc` is the one fetched. -/
theorem stepRunsTheDecodedLine : Obligations.StepRunsTheDecodedLine := fun _ _ _ hrun hline hdec =>
  step_of_decode hrun (State.line_of_getElem? hline ▸ hdec)

/-- A Running step whose line does not decode (R117). -/
theorem step_of_decode_error {s : State} {slot : Nat} {token : Text} (hrun : s.status = .running)
    (hdec : decode s.cfg s.line = .error slot token) :
    step s = .next (s.raise (.decodeError s.pc slot token)) := by
  simp only [step, hrun, hdec]
  rfl

/-- Settles O34: such a step only raises the fault, and raising writes `fault` alone. -/
theorem stepRecordsADecodeError : Obligations.StepRecordsADecodeError := fun _ _ _ _ hrun hline hdec =>
  step_of_decode_error hrun (State.line_of_getElem? hline ▸ hdec)

/-- An Aborted state stops with the fault it records (R116; log 7). -/
theorem step_of_fault {s : State} {f : Fault} (h : s.fault = some f) : step s = .fault f := by
  have habort : s.status = .aborted := s.status_aborted.mpr (by simp [h])
  simp only [step, habort, abortedStep, h]

/-- A step that answers a next state is taken from a state without a fault. -/
theorem State.fault_eq_none_of_step {s t : State} (h : step s = .next t) : s.fault = none := by
  cases hf : s.fault with
  | none => rfl
  | some f => simp [step_of_fault hf] at h

/-- An ended run that did not abort answers itself (R108; log 6). -/
theorem step_of_ended {s : State} (hfault : s.fault = none) (hrun : s.status ≠ .running) : step s = .next s := by
  have habort : s.status ≠ .aborted := by simp [s.status_aborted, hfault]
  cases hs : s.status with
  | running => exact absurd hs hrun
  | aborted => exact absurd hs habort
  | halted => simp only [step, hs, ended]
  | terminated => simp only [step, hs, ended]

/-- Settles O35: without a fault the run is Running, and its line has a next state, or has ended and stays. -/
theorem stepAnswersNextUnlessAborted : Obligations.StepAnswersNextUnlessAborted := by
  refine fun s => ⟨fun hfault => ?_, fun f => step_of_fault⟩
  by_cases hrun : s.status = .running
  · exact step_exists_next hrun
  · exact ⟨s, step_of_ended hfault hrun⟩

/-- Every next state of a Running state. -/
theorem step_running_cases {s t : State} (hrun : s.status = .running) (h : step s = .next t) :
    (∃ slot token, decode s.cfg s.line = .error slot token ∧ t = s.raise (.decodeError s.pc slot token)) ∨
    ∃ i, decode s.cfg s.line = .instr i ∧ exec i s = .next t := by
  rcases step_cases h with ⟨hended, -⟩ | ⟨-, herror⟩ | ⟨-, hexec⟩
  · simp [hrun] at hended
  · exact .inl herror
  · exact .inr hexec

/-! ## `pc` and the log (R22, R84) -/

/-- Settles O37: a line that does not decode leaves `pc`, and each form of `exec` moves it as its row says. -/
theorem pcFollowsTheLine : Obligations.PcFollowsTheLine := by
  intro s t hrun h
  rcases step_running_cases hrun h with ⟨slot, token, hdec, rfl⟩ | ⟨i, hdec, hexec⟩
  · rw [hdec]
    rfl
  rw [hdec]
  rcases exec_cases hexec with ⟨ops, rfl, rfl⟩ | ⟨ops, rfl, hb, rfl⟩ | ⟨ops, rfl, hb, rfl⟩ | ⟨ops, rfl | rfl, hb, rfl⟩ |
    ⟨ops, rd, a, b, ⟨rfl, -⟩ | ⟨rfl, -⟩, -, rfl⟩ | ⟨ops, rfl, hz, rfl⟩ | ⟨ops, ⟨rfl, hz⟩ | rfl, rfl⟩ | ⟨ops, rfl, rfl⟩ |
    ⟨name, rfl, rfl⟩
  · rfl
  · exact (if_pos hb).symm
  · exact (if_pos hb).symm
  · exact (if_neg (Nat.not_le_of_lt hb)).symm
  · exact (if_neg (Nat.not_le_of_lt hb)).symm
  · rfl
  · rfl
  · exact (if_neg (by simp [hz])).symm
  · exact (if_pos hz).symm
  · rfl
  · rfl
  · rfl

/-- Every meaning but a label line's logs the line, and that one does not (R84, R99; D25). -/
theorem exec_log {i : Instr} {s t : State} (h : exec i s = .next t) :
    t.log = s.log ++ if i.operands?.isSome then [s.line] else [] := by
  rcases exec_cases h with ⟨ops, rfl, rfl⟩ | ⟨ops, rfl, -, rfl⟩ | ⟨ops, rfl, -, rfl⟩ | ⟨ops, rfl | rfl, -, rfl⟩ |
    ⟨ops, rd, a, b, ⟨rfl, -⟩ | ⟨rfl, -⟩, -, rfl⟩ | ⟨ops, rfl, -, rfl⟩ | ⟨ops, ⟨rfl, -⟩ | rfl, rfl⟩ | ⟨ops, rfl, rfl⟩ |
    ⟨name, rfl, rfl⟩ <;> simp [Instr.operands?]

/-- Settles O38: a line that does not decode is not logged, and the others are as `exec_log` says. -/
theorem logGrowsByDispatchedLines : Obligations.LogGrowsByDispatchedLines := by
  intro s t hrun h
  rcases step_running_cases hrun h with ⟨slot, token, hdec, rfl⟩ | ⟨i, hdec, hexec⟩
  · rw [hdec]
    rfl
  · rw [hdec]
    exact exec_log hexec

/-! ## Faults (R115 to R119) -/

/-- LOAD and STORE out of bounds are the only meanings that touch `fault`. -/
theorem exec_fault_cases {i : Instr} {s t : State} (h : exec i s = .next t) :
    t.fault = s.fault ∨ ∃ ops, (i = .load ops ∨ i = .store ops) ∧ s.cfg.memSize < effectiveAddress s ops 1 + 8 ∧
      t = s.dispatched.raise (.outOfBoundsMemory s.pc (effectiveAddress s ops 1)) := by
  rcases exec_cases h with ⟨ops, -, rfl⟩ | ⟨ops, -, -, rfl⟩ | ⟨ops, -, -, rfl⟩ | hraise |
    ⟨ops, rd, a, b, -, -, rfl⟩ | ⟨ops, -, -, rfl⟩ | ⟨ops, -, rfl⟩ | ⟨ops, -, rfl⟩ | ⟨name, -, rfl⟩
  · exact .inl rfl
  · exact .inl rfl
  · exact .inl rfl
  · exact .inr hraise
  · exact .inl rfl
  · exact .inl rfl
  · exact .inl rfl
  · exact .inl rfl
  · exact .inl rfl

/-- Every step that raises a fault: which line, which fault, and the state it leaves. -/
theorem step_raises_cases {s t : State} {f : Fault} (h : step s = .next t) (hf : t.fault = some f) :
    s.status = .running ∧
    ((∃ slot token, f = .decodeError s.pc slot token ∧ decode s.cfg s.line = .error slot token ∧ t = s.raise f) ∨
      ∃ ops, f = .outOfBoundsMemory s.pc (effectiveAddress s ops 1) ∧
        s.cfg.memSize < effectiveAddress s ops 1 + 8 ∧
        (decode s.cfg s.line = .instr (.load ops) ∨ decode s.cfg s.line = .instr (.store ops)) ∧
        t = s.dispatched.raise f) := by
  have hnone := State.fault_eq_none_of_step h
  rcases step_cases h with ⟨-, rfl⟩ | ⟨hrun, slot, token, hdec, rfl⟩ | ⟨hrun, i, hdec, hexec⟩
  · simp [hnone] at hf
  · obtain rfl := Option.some.inj hf
    exact ⟨hrun, .inl ⟨slot, token, rfl, hdec, rfl⟩⟩
  · rcases exec_fault_cases hexec with hsame | ⟨ops, hi, hb, rfl⟩
    · simp [hsame, hnone] at hf
    · obtain rfl := Option.some.inj hf
      have hline : decode s.cfg s.line = .instr (.load ops) ∨ decode s.cfg s.line = .instr (.store ops) := by
        rcases hi with rfl | rfl
        · exact .inl hdec
        · exact .inr hdec
      exact ⟨hrun, .inr ⟨ops, rfl, hb, hline, rfl⟩⟩

/-- Settles O40: both kinds of faulting step end in a raise, of the state itself or of the dispatched one. -/
theorem faultsArePrecise : Obligations.FaultsArePrecise := by
  intro s t f _ h hf
  have habort : t.status = .aborted := t.status_aborted.mpr (by simp [hf])
  obtain ⟨-, ⟨slot, token, -, -, rfl⟩ | ⟨ops, -, -, -, rfl⟩⟩ := step_raises_cases h hf
  · exact ⟨rfl, rfl, rfl, rfl, rfl, rfl, rfl, rfl, .inl rfl, habort, step_of_fault hf⟩
  · exact ⟨rfl, rfl, rfl, rfl, rfl, rfl, rfl, rfl, .inr rfl, habort, step_of_fault hf⟩

/-- Settles O41: the two kinds of faulting step, each with its cause. -/
theorem faultsComeFromTheirCauses : Obligations.FaultsComeFromTheirCauses := by
  intro s t f _ h hf
  obtain ⟨-, ⟨slot, token, hcode, hdec, -⟩ | ⟨ops, hcode, hb, hdec, -⟩⟩ := step_raises_cases h hf
  · exact .inl ⟨slot, token, hcode, hdec⟩
  · exact .inr ⟨ops, hcode, hb, hdec⟩

/-! ## Frames of every step (R18, R25, R27, R47) -/

/-- STORE is the one meaning that touches memory. -/
theorem exec_mem_cases {i : Instr} {s t : State} (h : exec i s = .next t) : t.mem = s.mem ∨ ∃ ops, i = .store ops := by
  rcases exec_cases h with ⟨ops, -, rfl⟩ | ⟨ops, -, -, rfl⟩ | ⟨ops, hi, -, -⟩ | ⟨ops, -, -, rfl⟩ |
    ⟨ops, rd, a, b, -, -, rfl⟩ | ⟨ops, -, -, rfl⟩ | ⟨ops, -, rfl⟩ | ⟨ops, -, rfl⟩ | ⟨name, -, rfl⟩
  · exact .inl rfl
  · exact .inl rfl
  · exact .inr ⟨ops, hi⟩
  · exact .inl rfl
  · exact .inl rfl
  · exact .inl rfl
  · exact .inl rfl
  · exact .inl rfl
  · exact .inl rfl

/-- A step that changes memory has a line that decodes to a STORE. -/
theorem step_mem_cases {s t : State} (h : step s = .next t) :
    t.mem = s.mem ∨ ∃ ops, decode s.cfg s.line = .instr (.store ops) := by
  rcases step_cases h with ⟨-, rfl⟩ | ⟨-, slot, token, -, rfl⟩ | ⟨-, i, hdec, hexec⟩
  · exact .inl rfl
  · exact .inl rfl
  · exact (exec_mem_cases hexec).imp_right fun ⟨ops, hi⟩ => ⟨ops, hi ▸ hdec⟩

/-- A line decodes to a STORE only with `HAS_STORE` (R57, R65). -/
theorem hasStore_of_decode_store {cfg : Config} {line : Text} {ops : List Operand}
    (h : decode cfg line = .instr (.store ops)) : cfg.hasStore = true := by
  obtain ⟨hwf, -⟩ := decodeGivesBoundedOperations cfg line _ h
  exact (Bool.and_eq_true_iff.mp hwf).1

/-- Settles O42: a step that changes memory runs a STORE line, and without `HAS_STORE` no line decodes to one. -/
theorem memoryIsWrittenByStoreOnly : Obligations.MemoryIsWrittenByStoreOnly := by
  refine fun s t h => ⟨fun hne => (step_mem_cases h).resolve_left hne, fun hno => ?_⟩
  rcases step_mem_cases h with hmem | ⟨ops, hdec⟩
  · exact hmem
  · simp [hasStore_of_decode_store hdec] at hno

theorem exec_v_x_length {i : Instr} {s t : State} (h : exec i s = .next t) :
    t.v = s.v ∧ t.x.length = s.x.length := by
  rcases exec_cases h with ⟨ops, -, rfl⟩ | ⟨ops, -, -, rfl⟩ | ⟨ops, -, -, rfl⟩ | ⟨ops, -, -, rfl⟩ |
    ⟨ops, rd, a, b, -, -, rfl⟩ | ⟨ops, -, -, rfl⟩ | ⟨ops, -, rfl⟩ | ⟨ops, -, rfl⟩ | ⟨name, -, rfl⟩ <;> simp

/-- Settles O43: no meaning writes these fields, and a register is written in place. -/
theorem programAndVectorRegistersNeverChange : Obligations.ProgramAndVectorRegistersNeverChange := by
  intro s t h
  obtain ⟨hprogram, hcfg⟩ := step_program_cfg h
  refine ⟨hprogram, hcfg, ?_⟩
  rcases step_cases h with ⟨-, rfl⟩ | ⟨-, slot, token, -, rfl⟩ | ⟨-, i, -, hexec⟩
  · exact ⟨rfl, rfl⟩
  · exact ⟨rfl, rfl⟩
  · exact exec_v_x_length hexec

/-! ## The run status (R105, R108) -/

theorem State.status_halted (s : State) : s.status = .halted ↔ s.fault = none ∧ s.halted = true := by
  unfold State.status
  cases s.fault <;> cases s.halted <;> simp
  split <;> simp

theorem State.status_terminated (s : State) :
    s.status = .terminated ↔ s.fault = none ∧ s.halted = false ∧ s.program.length ≤ s.pc := by
  unfold State.status
  cases s.fault <;> cases s.halted <;> simp

/-- The three outcomes of a Running step (R108): it aborts at its line, it halts there, or it goes on, to a line of the
Program or to its end. -/
theorem step_running_outcomes {s t : State} (hrun : s.status = .running) (h : step s = .next t) :
    (t.fault ≠ none ∧ t.halted = false ∧ t.pc < s.program.length) ∨
    (t.fault = none ∧ t.halted = true ∧ t.pc < s.program.length) ∨
    (t.fault = none ∧ t.halted = false ∧ t.pc ≤ s.program.length) := by
  obtain ⟨hfault, hhalted, hpc⟩ := s.status_running.mp hrun
  have hjump := fun name => lookup_lt_length name (Nat.zero_lt_of_lt hpc)
  rcases step_running_cases hrun h with ⟨slot, token, -, rfl⟩ | ⟨i, -, hexec⟩
  · exact .inl ⟨by simp, hhalted, hpc⟩
  rcases exec_cases hexec with ⟨ops, -, rfl⟩ | ⟨ops, -, -, rfl⟩ | ⟨ops, -, -, rfl⟩ | ⟨ops, -, -, rfl⟩ |
    ⟨ops, rd, a, b, -, -, rfl⟩ | ⟨ops, -, -, rfl⟩ | ⟨ops, -, rfl⟩ | ⟨ops, -, rfl⟩ | ⟨name, -, rfl⟩
  · exact .inr (.inr ⟨hfault, hhalted, hpc⟩)
  · exact .inr (.inr ⟨hfault, hhalted, hpc⟩)
  · exact .inr (.inr ⟨hfault, hhalted, hpc⟩)
  · exact .inl ⟨by simp, hhalted, hpc⟩
  · exact .inr (.inr ⟨hfault, hhalted, hpc⟩)
  · exact .inr (.inr ⟨hfault, hhalted, (hjump _).le⟩)
  · exact .inr (.inr ⟨hfault, hhalted, hpc⟩)
  · exact .inr (.inl ⟨hfault, rfl, hpc⟩)
  · exact .inr (.inr ⟨hfault, hhalted, hpc⟩)

/-- What the status of the next state says, for a Running step. -/
theorem status_after_running {s t : State} (hrun : s.status = .running) (h : step s = .next t) :
    (t.status = .halted ↔ t.halted = true) ∧ (t.status = .terminated ↔ t.pc = s.program.length) := by
  obtain ⟨hprogram, -⟩ := step_program_cfg h
  rw [State.status_halted, State.status_terminated, hprogram]
  rcases step_running_outcomes hrun h with ⟨hfault, hhalted, hpc⟩ | ⟨hfault, hhalted, hpc⟩ | ⟨hfault, hhalted, hpc⟩
  · simp [hfault, hhalted, hpc.ne]
  · simp [hfault, hhalted, hpc.ne]
  · simp [hfault, hhalted, Nat.le_antisymm_iff, hpc]

/-- A taken branch stays Running: it lands on a line of the Program. -/
theorem status_after_taken_branch {s t : State} {ops : List Operand} (hrun : s.status = .running)
    (h : step s = .next t) (hdec : decode s.cfg s.line = .instr (.bne ops)) (hz : s.flags.z = false) :
    t.status = .running := by
  obtain ⟨hfault, hhalted, hpc⟩ := s.status_running.mp hrun
  rw [step_of_decode hrun hdec, exec_bne_taken hz] at h
  obtain rfl := Host.Outcome.next.inj h
  exact (State.status_running _).mpr ⟨hfault, hhalted, lookup_lt_length _ (Nat.zero_lt_of_lt hpc)⟩

theorem runStart_status (s : State) (program : List Text) :
    (s.runStart program).status = if program = [] then .terminated else .running := by
  cases program <;> rfl

/-- Settles O44: run start, the ended runs, and for a Running step the outcomes of `step_running_outcomes`. -/
theorem runStatusTransitions : Obligations.RunStatusTransitions := by
  refine ⟨runStart_status, fun s t hrun h => ?_, fun s t hrun h => ?_⟩
  · rw [step_of_ended (State.fault_eq_none_of_step h) hrun] at h
    exact (Host.Outcome.next.inj h).symm
  · obtain ⟨hhalted, hterminated⟩ := status_after_running hrun h
    refine ⟨?_, ?_, hterminated, fun ops => status_after_taken_branch hrun h⟩
    · rw [hhalted, step_halted_iff h]
      simp [State.not_halted_of_running hrun, hrun]
    · rw [State.status_aborted, Option.isSome_iff_ne_none]

/-! ## What no instruction reads (R18, R20, R26) -/

/-- An answer with everything no instruction reads put to one fixed value. -/
def Result.view : Result → Result
  | .next t => .next t.view
  | .fault f => .fault f
  | .refused r => .refused r

/-- An instruction gives the same view, run on a state or on its view. -/
theorem exec_view (i : Instr) (s : State) : Result.view (exec i s.view) = Result.view (exec i s) := by
  cases i with
  | load ops =>
    rcases Nat.lt_or_ge s.cfg.memSize (effectiveAddress s ops 1 + 8) with hb | hb
    · rw [exec_load_outOfBounds hb, exec_load_outOfBounds (s := s.view) hb]
      rfl
    · rw [exec_load_inBounds hb, exec_load_inBounds (s := s.view) hb]
      rfl
  | store ops =>
    rcases Nat.lt_or_ge s.cfg.memSize (effectiveAddress s ops 1 + 8) with hb | hb
    · rw [exec_store_outOfBounds hb, exec_store_outOfBounds (s := s.view) hb]
      rfl
    · rw [exec_store_inBounds hb, exec_store_inBounds (s := s.view) hb]
      rfl
  | bne ops =>
    cases hz : s.flags.z with
    | false =>
      rw [exec_bne_taken hz, exec_bne_taken (s := s.view) hz]
      rfl
    | true =>
      rw [exec_bne_fallsThrough hz, exec_bne_fallsThrough (s := s.view) hz]
      rfl
  | movi ops => rfl
  | add ops => rfl
  | dec ops => rfl
  | halt ops => rfl
  | labelDef name => rfl
  | unrecognized ops => rfl

theorem State.view_status (s : State) : s.view.status = s.status := rfl

/-- So does a step: status, line and parameters are in the view. -/
theorem step_view (s : State) : Result.view (step s.view) = Result.view (step s) := by
  cases hf : s.fault with
  | some f => rw [step_of_fault hf, step_of_fault (s := s.view) hf]
  | none =>
    by_cases hrun : s.status = .running
    · cases hdec : decode s.cfg s.line with
      | error slot token =>
        rw [step_of_decode_error hrun hdec, step_of_decode_error (s := s.view) hrun hdec]
        rfl
      | instr i =>
        rw [step_of_decode hrun hdec, step_of_decode (s := s.view) hrun hdec]
        exact exec_view i s
    · rw [step_of_ended hf hrun, step_of_ended (s := s.view) hf hrun]
      rfl

theorem Result.view_eq_next {r : Result} {u : State} : r.view = .next u ↔ ∃ t, r = .next t ∧ u = t.view := by
  cases r <;> simp [Result.view, eq_comm]

theorem Result.view_eq_fault {r : Result} {f : Fault} : r.view = .fault f ↔ r = .fault f := by
  cases r <;> simp [Result.view]

/-- Settles O45: the view of a step's answer is that of the step of the view (`step_view`). -/
theorem unreadStateHasNoInfluence : Obligations.UnreadStateHasNoInfluence := by
  intro s s' hview
  have hanswer : Result.view (step s') = Result.view (step s) := by rw [← step_view s', ← hview, step_view s]
  refine ⟨fun t h => ?_, fun f h => ?_⟩
  · rw [h] at hanswer
    exact Result.view_eq_next.mp hanswer
  · rw [h] at hanswer
    exact Result.view_eq_fault.mp hanswer

end Sys2Proof.Machine
end

section
/-! The statements about construction, the host's transactions (10_state.md, 70_reset_and_hazards.md) and the predicates
over a Program (45_controller.md) that remain. -/

namespace Sys2Proof.Machine

/-! ## Construction, preload and run start (R31, R135 to R137) -/

theorem State.construct_inv {cfg : Config} (h : cfg.wf) : (State.construct cfg).Inv where
  cfg_wf := h
  program_fits := by simp
  regs_length := List.length_replicate
  vregs_zero := rfl
  mem_wf := Memory.nil_wf
  mem_within := by simp [Memory.within]
  pc_le := Nat.zero_le _
  halted_pc := by simp
  fault_not_halted := by simp
  fault_fits := by simp

/-- Settles O47: the reset state is constructed with the default parameters, which have registers. -/
theorem constructionMeetsTheInvariant : Obligations.ConstructionMeetsTheInvariant :=
  ⟨fun _ => State.construct_inv, State.construct_inv (by decide)⟩

/-- Settles O50: a preload within the capacity is one byte write, and past it nothing (log 27). -/
theorem preloadSetsOneByte : Obligations.PreloadSetsOneByte := by
  intro s a k b hwf
  rw [State.preload_mem]
  by_cases ha : a < s.cfg.memSize
  · simp [ha, Memory.read_write a b k hwf]
  · simp [ha]

/-- Settles O51: each field of the started run by its own law of the state. -/
theorem runStartSetsThreeFields : Obligations.RunStartSetsThreeFields := by
  rintro s t program rfl
  exact ⟨s.runStart_program program, s.runStart_pc program, s.runStart_halted program, s.runStart_fault program,
    s.runStart_x program, s.runStart_v program, s.runStart_flags program, s.runStart_mem program,
    s.runStart_log program, s.runStart_cfg program⟩

/-! ## Predicates over a Program (R112) -/

theorem allDecode_iff {cfg : Config} {program : List Text} :
    allDecode cfg program = true ↔ ∀ line ∈ program, ∃ i, decode cfg line = .instr i := by
  rw [allDecode, List.all_eq_true]
  refine forall₂_congr fun line _ => ?_
  cases decode cfg line <;> simp

theorem decode_of_allWellShaped {cfg : Config} {program : List Text} (h : allWellShaped cfg program = true)
    {line : Text} (hline : line ∈ program) : ∃ i, decode cfg line = .instr i := by
  have hshaped := List.all_eq_true.mp h line hline
  cases hdec : decode cfg line with
  | instr i => exact ⟨i, rfl⟩
  | error slot token => simp [hdec] at hshaped

/-- Settles O53: a step that records a DecodeError fetched a line of the Program that does not decode. -/
theorem allDecodeExcludesDecodeError : Obligations.AllDecodeExcludesDecodeError := by
  refine ⟨fun cfg program h => allDecode_iff.mpr fun line => decode_of_allWellShaped h,
    fun s t hall h index slot token hf => ?_⟩
  obtain ⟨hrun, ⟨slot', token', -, herror, -⟩ | ⟨ops, hcode, -⟩⟩ := step_raises_cases h hf
  · obtain ⟨i, hdec⟩ := allDecode_iff.mp hall s.line (State.line_mem_program hrun)
    simp [hdec] at herror
  · cases hcode

/-- Under LabelsResolved the label map has an entry for the name of every BNE of the Program. -/
theorem labelIndex?_of_labelsResolved {cfg : Config} {program : List Text} {line : Text} {ops : List Operand}
    (h : labelsResolved cfg program = true) (hline : line ∈ program) (hdec : decode cfg line = .instr (.bne ops)) :
    ∃ i, labelIndex? (resolve program) (nameSlot ops 0) = some i := by
  have hresolved := List.all_eq_true.mp h line hline
  simp only [hdec] at hresolved
  exact Option.isSome_iff_exists.mp hresolved

/-- Settles O54: the branch goes to the map's entry for its name, which is the index of a line that defines it. -/
theorem resolvedBranchLandsOnItsLabel : Obligations.ResolvedBranchLandsOnItsLabel := by
  intro s ops hresolved hrun hdec hz
  obtain ⟨i, hi⟩ := labelIndex?_of_labelsResolved hresolved (State.line_mem_program hrun) hdec
  obtain ⟨⟨line, hline, hname⟩, -⟩ := (resolverKeepsTheLastDefinition s.program (nameSlot ops 0) i).mp hi
  have hstep : step s = .next (s.dispatched.apply (.jump i)) := by
    rw [step_of_decode hrun hdec, exec_bne_taken hz, lookup_of_some hi]
  have hland : (s.dispatched.apply (.jump i)).line = line := State.line_of_getElem? hline
  exact ⟨_, hstep, hland ▸ hname⟩

end Sys2Proof.Machine
end
